-- ==== Sys2Proof/Word.lean ====
section
/-!
DEFINITION. The value types of the engine (00_scope.md R9): u8, u32, u64 and `Bytes`.
`+` on `Word` is the spec's `+32` and `+` on `Count` its `+64` (R10, 42_bitwise_primitives.md R186).
-/

namespace Sys2Proof

/-- `u8` (R9): one byte of a payload, of BUF or of a response. -/
abbrev Byte := BitVec 8

/-- `u32` (R9): a chaining word, a working register or a message word. -/
abbrev Word := BitVec 32

/-- `u64` (R9): the type of COUNT, which counts bits of input (10_state.md R23). -/
abbrev Count := BitVec 64

/-- `Bytes` (R9): a finite list of bytes. -/
abbrev Bytes := List Byte

end Sys2Proof
end

