-- ==== Sys2Proof/Syntax.lean ====
section
/-!
DEFINITION. The commands of the engine (30_encoding.md), one constructor per row of the opcode table,
and the abstract syntax of a command program's lines (R78).
-/

namespace Sys2Proof

/-- A command `(op, p)` whose opcode is assigned (R70, R72). Every command carries the payload of its
transaction: UPDATE's is its operand (R71), and a payload on INIT or FINALIZE is what R75 makes them
refuse, so all three hold it. -/
inductive Instr where
  /-- op 0x01, the source's `new()` (R72). -/
  | init (p : Bytes)
  /-- op 0x02, the source's `update(ctx, bytes)` (R72). -/
  | update (p : Bytes)
  /-- op 0x03, the source's `finalize(ctx)` (R72). -/
  | finalize (p : Bytes)
  deriving DecidableEq, Repr

/-- What the opcode byte selects (R73): one of exactly four. -/
inductive Opcode where
  | init
  | update
  | finalize
  | reserved
  deriving DecidableEq, Repr

/-- The payload a command carries (R70). -/
def Instr.payload : Instr → Bytes
  | .init p => p
  | .update p => p
  | .finalize p => p

/-- The command a command is, without its payload (R72). -/
def Instr.opcode : Instr → Opcode
  | .init _ => .init
  | .update _ => .update
  | .finalize _ => .finalize

/-- The byte-literal forms of R78. -/
inductive ByteExpr where
  /-- A zero-length payload. -/
  | empty
  /-- `"text"`: the ASCII bytes of the text, with no terminator. -/
  | text (chars : List Char)
  /-- `0x<hex>`: the bytes from the left. -/
  | hex (bytes : Bytes)
  /-- `rep(b, n)`: byte `b` repeated `n` times. -/
  | rep (b : Byte) (n : Nat)
  /-- `iota(a, n)`: the bytes `(a + k) mod 256` for k = 0..n-1. -/
  | iota (a : Byte) (n : Nat)
  /-- `x ++ y`: concatenation. -/
  | append (x y : ByteExpr)
  deriving DecidableEq, Repr

/-- A line of a command program (R78): a command, or the pseudo-command HASH (R79). -/
inductive Line where
  | init
  | update (operand : ByteExpr)
  | finalize
  | hash (operand : ByteExpr)
  deriving DecidableEq, Repr

end Sys2Proof
end

