-- ==== Sys2Proof/WellFormed.lean ====
section
/-!
DEFINITION. Which commands are well formed (30_encoding.md R70, R75): INIT and FINALIZE have an empty
payload, UPDATE any. An ill-formed command still decodes, and its meaning raises ILLEGAL_COMMAND (R75).
-/

namespace Sys2Proof

/-- The check of R75, on the command as syntax. -/
def Instr.wf : Instr → Bool
  | .init p => p.isEmpty
  | .update _ => true
  | .finalize p => p.isEmpty

end Sys2Proof
end

