-- ==== Sys2Proof/Decode.lean ====
section
/-!
DEFINITION. Decoding a command (30_encoding.md R70 to R76) and, after it, encoding one.
-/

namespace Sys2Proof

/-- What decoding a transaction's bytes gives: a command, or a rejection by name. -/
inductive Decoded where
  /-- A command with an assigned opcode. -/
  | instr (i : Instr)
  /-- The opcode is reserved (R74); the engine raises ILLEGAL_COMMAND. -/
  | reservedOpcode (op : Byte)
  /-- No bytes at all: not a command, since a command is 1 + len(p) bytes long (R70). -/
  | noOpcode
  deriving DecidableEq, Repr

/-- `decode(op)` of R73: total, and the whole byte counts (mask 0xFF, R72). -/
def decodeOp (op : Byte) : Opcode :=
  if op = 0x01 then .init
  else if op = 0x02 then .update
  else if op = 0x03 then .finalize
  else .reserved

/-- Decoding the pair `(op, p)` of R70. -/
def decodeCommand (op : Byte) (p : Bytes) : Decoded :=
  match decodeOp op with
  | .init => .instr (.init p)
  | .update => .instr (.update p)
  | .finalize => .instr (.finalize p)
  | .reserved => .reservedOpcode op

/-- Decoding a transaction given as its bytes, the opcode first (R70); the payload's length is the
transaction's own (R76). -/
def decodeBytes : Bytes → Decoded
  | [] => .noOpcode
  | op :: p => decodeCommand op p

/-- The opcode byte of a command (R72). -/
def opcodeByte : Instr → Byte
  | .init _ => 0x01
  | .update _ => 0x02
  | .finalize _ => 0x03

/-- The bytes of a command: its opcode, then its payload (R70). -/
def encode (i : Instr) : Bytes :=
  opcodeByte i :: i.payload

/-- The `n` bytes of a table word, byte 0 of the transaction from bits 7..0 (the opcode table's
numbering, log entry 11). -/
def tableBytes (n w : Nat) : Bytes :=
  (List.range n).map fun k => BitVec.ofNat 8 (w >>> (8 * k))

/-- The host's question: the command my decoder reads from `nbits` bits `w`. The table gives every
command its opcode byte alone, so the payload is empty (log entry 11). -/
def decodeTableWord (nbits w : Nat) : Option Instr :=
  match decodeBytes (tableBytes (nbits / 8) w) with
  | .instr i => some i
  | .reservedOpcode _ => none
  | .noOpcode => none

end Sys2Proof
end

