-- ==== Sys2Proof/Config.lean ====
section
/-!
DEFINITION. What an implementation fixes and what the spec leaves without a value.
The parameter COUNT_OVERFLOW is a type here and a field of State (log entry 5). The opaque constants
have no body: no proof can learn a value of one.
-/

namespace Sys2Proof

/-- The values of the parameter COUNT_OVERFLOW (00_scope.md R8, 40_context_commands.md R104, D18). -/
inductive OverflowMode where
  /-- COUNT advances modulo 2^64. The spec's default. -/
  | wrap
  /-- A command whose advance would reach 2^64 raises COUNT_OVERFLOW before any change. -/
  | fault
  deriving DecidableEq, Repr

/-- The parameter LATENCY (R8, 70_reset_and_hazards.md R238, D23), in units the spec does not give.
No rule depends on it, and nothing in the model reads it (log entry 8). -/
opaque Config.latency : Nat

/-- Chaining word `i` after the `n`-th BLOCK_LENGTH fault: unspecified (60_exceptions.md R207),
a free value (log entry 7). -/
opaque Config.freeChainWord : (n : Nat) → (i : Fin 5) → Word

/-- BUF[i] after the `n`-th BLOCK_LENGTH fault: unspecified (R207), a free value (log entry 7). -/
opaque Config.freeBufByte : (n : Nat) → (i : Fin 64) → Byte

/-- COUNT after the `n`-th BLOCK_LENGTH fault: unspecified (R207), a free value (log entry 7). -/
opaque Config.freeCount : (n : Nat) → Count

end Sys2Proof
end

