-- ==== Sys2Proof/Machine/State.lean ====
section
/-!
DEFINITION. The state of one engine instance (10_state.md R20), the host's side of the interface as
plain data, and the state after reset.
-/

namespace Sys2Proof.Machine

/-- The chaining state H[0..4] (10_state.md R21). -/
structure Chain where
  h0 : Word
  h1 : Word
  h2 : Word
  h3 : Word
  h4 : Word
  deriving DecidableEq, Repr

/-- BUF[0..63] (R22): exactly 64 bytes, the stale ones included. -/
abbrev Buffer := Vector Byte 64

/-- PHASE, the lifecycle state of the context (R25). Its 2-bit code is `phaseCode`. -/
inductive Phase where
  /-- No context exists; UPDATE and FINALIZE are refused. -/
  | idle
  /-- A context is live and accepts UPDATE and FINALIZE. -/
  | absorb
  /-- The context was finalized. -/
  | spent
  /-- A contract violation was detected; every command is refused until reset. -/
  | fault
  deriving DecidableEq, Repr

/-- CAUSE, why the engine entered FAULT (R26). Its 3-bit code is `causeCode`; the reserved codes 6 and
7 are never written and have no constructor. -/
inductive Cause where
  | none
  | illegalCommand
  | notInitialised
  | spentContext
  | countOverflow
  | blockLength
  deriving DecidableEq, Repr

/-- The response a command produces (00_scope.md R13, 30_encoding.md R77). -/
inductive Response where
  | ok
  /-- The 20 bytes of the digest. -/
  | digest (d : Bytes)
  | fault (c : Cause)
  deriving DecidableEq, Repr

/-- What the host can do to the engine (70_reset_and_hazards.md R240). -/
inductive HostAction where
  /-- Issue the command `(op, p)` (30_encoding.md R70) and wait for its response (R235). -/
  | command (op : Byte) (p : Bytes)
  /-- Read STATUS between commands (10_state.md R27). -/
  | readStatus
  /-- Apply hardware reset between commands (R230). -/
  | hardwareReset
  /-- Issue a command that a hardware reset cuts short: no response, reset state (R231). -/
  | commandCutByReset (op : Byte) (p : Bytes)
  deriving DecidableEq, Repr

/-- The state: R20's registers, the build parameter, the interface, and the free-value counter. -/
structure State where
  /-- H[0..4] (R21). -/
  h : Chain
  /-- BUF[0..63] (R22). -/
  buf : Buffer
  /-- COUNT, in bits (R23). -/
  count : Count
  /-- PHASE (R25). -/
  phase : Phase
  /-- CAUSE (R26). -/
  cause : Cause
  /-- The build parameter COUNT_OVERFLOW (00_scope.md R8). No step writes it (log entry 5). -/
  countOverflow : OverflowMode
  /-- The host's actions not yet performed, the next one first (R239, R240; log entry 3). -/
  pending : List HostAction
  /-- The responses given so far, oldest first: a run's observation (R239; log entry 4). -/
  responses : List Response
  /-- The values the host's reads of STATUS returned, oldest first (R27; log entry 4). -/
  statusReads : List Byte
  /-- The model's own counter of free values, not the spec's (log entry 7). -/
  fresh : Nat
  deriving DecidableEq, Repr

/-- The reasons a step stops with a fault: none. Every contract violation of the spec enters the phase
FAULT and answers a next state (60_exceptions.md R207), so this closed inductive has no constructor and
no step answers `.fault`: safe. -/
inductive Fault where
  deriving DecidableEq, Repr

/-- The reasons a step is refused. -/
inductive Refusal where
  /-- Raised only by an arm of `exec` whose command has no meaning yet; there is none left, so no step
  answers it. Safe: it stops where the engine goes on. -/
  | notModelled (mnemonic : String)
  deriving DecidableEq, Repr

/-- Hardware reset (R36, 70_reset_and_hazards.md R230): PHASE = IDLE, CAUSE = NONE. The spec leaves H,
BUF and COUNT unspecified: zero here, DESIGN CHOICE, unsafe (log entry 1). COUNT_OVERFLOW is the spec's
default (log entry 5); nothing is pending and nothing has been observed (log entries 3 and 4). -/
def State.reset : State where
  h := ⟨0, 0, 0, 0, 0⟩
  buf := Vector.replicate 64 0
  count := 0
  phase := .idle
  cause := .none
  countOverflow := .wrap
  pending := []
  responses := []
  statusReads := []
  fresh := 0

end Sys2Proof.Machine
end

