-- ==== Sys2Proof/Machine/Operands.lean ====
section
/-!
DEFINITION. The operand forms: byte packing (00_scope.md R12, 20_memory.md R52 to R54), the padding
bytes of FINALIZE (40_context_commands.md R111 to R113) and the byte expressions of R78.
-/

namespace Sys2Proof.Machine

/-- `le32` (R12): byte 0 is the least significant. -/
def le32 (b0 b1 b2 b3 : Byte) : Word :=
  b0.setWidth 32 ||| (b1.setWidth 32 <<< 8) ||| (b2.setWidth 32 <<< 16) ||| (b3.setWidth 32 <<< 24)

/-- `le32_bytes` (R12). -/
def le32Bytes (w : Word) : Bytes :=
  [w.extractLsb' 0 8, w.extractLsb' 8 8, w.extractLsb' 16 8, w.extractLsb' 24 8]

/-- `le64_bytes` (R12): the length field of FINALIZE (R53). -/
def le64Bytes (v : Count) : Bytes :=
  [v.extractLsb' 0 8, v.extractLsb' 8 8, v.extractLsb' 16 8, v.extractLsb' 24 8,
   v.extractLsb' 32 8, v.extractLsb' 40 8, v.extractLsb' 48 8, v.extractLsb' 56 8]

/-- Message word `i` of a block (R52): from the bytes `[4i, 4i+4)`. -/
def messageWord (blk : Bytes) (i : Nat) : Word :=
  le32 (blk.getD (4 * i) 0) (blk.getD (4 * i + 1) 0) (blk.getD (4 * i + 2) 0) (blk.getD (4 * i + 3) 0)

/-- The message schedule X[0..15] of a 64-byte block (R29, R142). -/
def schedule (blk : Bytes) : Vector Word 16 :=
  Vector.ofFn fun i => messageWord blk i.val

/-- The digest (R54, R114): the five words little-endian, word 0 first. -/
def digestBytes (h : Chain) : Bytes :=
  le32Bytes h.h0 ++ le32Bytes h.h1 ++ le32Bytes h.h2 ++ le32Bytes h.h3 ++ le32Bytes h.h4

/-- `padlen` (R111): it counts the marker, the zeros and the 8 length bytes (90_conflicts.md C1). -/
def padLen (used : Nat) : Nat :=
  if 64 - used < 9 then 64 - used + 64 else 64 - used

/-- The pad content (R112): 0x80, then `padlen - 9` zero bytes. -/
def padBytes (padlen : Nat) : Bytes :=
  0x80 :: List.replicate (padlen - 9) 0x00

/-- The bytes a byte expression of R78 spells. -/
def byteExprBytes : ByteExpr → Bytes
  | .empty => []
  | .text chars => chars.map fun c => BitVec.ofNat 8 c.toNat
  | .hex bytes => bytes
  | .rep b n => List.replicate n b
  | .iota a n => (List.range n).map fun k => a + BitVec.ofNat 8 k
  | .append x y => byteExprBytes x ++ byteExprBytes y

end Sys2Proof.Machine
end

