-- ==== Sys2Proof/Machine/Primitives.lean ====
section
/-!
DEFINITION. The bitwise primitives (42_bitwise_primitives.md R180 to R188): pure total functions on words.
-/

namespace Sys2Proof.Machine

/-- `rol` (R180). The engine uses 5 to 15 only; outside 1..31 it is `rol(x, n mod 32)`, the choice R180
offers (log entry 9). -/
def rol (x : Word) (n : Nat) : Word :=
  (x <<< (n % 32)) ||| (x >>> (32 - n % 32))

/-- f0, the parity function (R181). -/
def f0 (x y z : Word) : Word := x ^^^ y ^^^ z

/-- f1, the select function (R182). -/
def f1 (x y z : Word) : Word := (x &&& y) ||| (~~~x &&& z)

/-- f2 (R183). -/
def f2 (x y z : Word) : Word := (x ||| ~~~y) ^^^ z

/-- f3, the select function with z as selector (R184). -/
def f3 (x y z : Word) : Word := (x &&& z) ||| (y &&& ~~~z)

/-- f4 (R185). -/
def f4 (x y z : Word) : Word := x ^^^ (y ||| ~~~z)

/-- `f(n, x, y, z)`, selection by index (R188). -/
def boolFun (n : Fin 5) : Word → Word → Word → Word :=
  match n with
  | 0 => f0
  | 1 => f1
  | 2 => f2
  | 3 => f3
  | 4 => f4

end Sys2Proof.Machine
end

