-- ==== Sys2Proof/Machine/Tables.lean ====
section
/-!
DEFINITION. The constant ROM (10_state.md R30): IV (R21) and the tables of 41_compression.md R146 to R149,
which the spec gives as its own rules, marked there as from general knowledge (93_implementation_defined.md
K1 to K4). A table has one row per round, its entries the round's 16 steps from left to right.
-/

namespace Sys2Proof.Machine

/-- The initial chaining state (R21, 40_context_commands.md R101). -/
def iv : Chain := ⟨0x67452301, 0xEFCDAB89, 0x98BADCFE, 0x10325476, 0xC3D2E1F0⟩

/-- The round of step j (R144): r = j div 16. -/
def roundOf (j : Fin 80) : Fin 5 := ⟨j.val / 16, by omega⟩

/-- The place of step j within its round: j mod 16. -/
def placeOf (j : Fin 80) : Fin 16 := ⟨j.val % 16, by omega⟩

/-- KL[r], the left line's round constants (R146). -/
def kl : Vector Word 5 :=
  #v[0x00000000, 0x5A827999, 0x6ED9EBA1, 0x8F1BBCDC, 0xA953FD4E]

/-- KR[r], the right line's round constants (R146). -/
def kr : Vector Word 5 :=
  #v[0x50A28BE6, 0x5C4DD124, 0x6D703EF3, 0x7A6D76E9, 0x00000000]

/-- The rows of RL (R147). -/
def rlRows : Vector (Vector (Fin 16) 16) 5 :=
  #v[#v[0, 1, 2, 3, 4, 5, 6, 7, 8, 9, 10, 11, 12, 13, 14, 15],
     #v[7, 4, 13, 1, 10, 6, 15, 3, 12, 0, 9, 5, 2, 14, 11, 8],
     #v[3, 10, 14, 4, 9, 15, 8, 1, 2, 7, 0, 6, 13, 11, 5, 12],
     #v[1, 9, 11, 10, 0, 8, 12, 4, 13, 3, 7, 15, 14, 5, 6, 2],
     #v[4, 0, 5, 9, 7, 12, 2, 10, 14, 1, 3, 8, 11, 6, 15, 13]]

/-- The rows of RR (R148). -/
def rrRows : Vector (Vector (Fin 16) 16) 5 :=
  #v[#v[5, 14, 7, 0, 9, 2, 11, 4, 13, 6, 15, 8, 1, 10, 3, 12],
     #v[6, 11, 3, 7, 0, 13, 5, 10, 14, 15, 8, 12, 4, 9, 1, 2],
     #v[15, 5, 1, 3, 7, 14, 6, 9, 11, 8, 12, 2, 10, 0, 4, 13],
     #v[8, 6, 4, 1, 3, 11, 15, 0, 5, 12, 2, 13, 9, 7, 10, 14],
     #v[12, 15, 10, 4, 1, 5, 8, 7, 6, 2, 13, 14, 0, 3, 9, 11]]

/-- The rows of SL (R149). -/
def slRows : Vector (Vector Nat 16) 5 :=
  #v[#v[11, 14, 15, 12, 5, 8, 7, 9, 11, 13, 14, 15, 6, 7, 9, 8],
     #v[7, 6, 8, 13, 11, 9, 7, 15, 7, 12, 15, 9, 11, 7, 13, 12],
     #v[11, 13, 6, 7, 14, 9, 13, 15, 14, 8, 13, 6, 5, 12, 7, 5],
     #v[11, 12, 14, 15, 14, 15, 9, 8, 9, 14, 5, 6, 8, 6, 5, 12],
     #v[9, 15, 5, 11, 6, 8, 13, 12, 5, 12, 13, 14, 11, 8, 5, 6]]

/-- The rows of SR (R149). -/
def srRows : Vector (Vector Nat 16) 5 :=
  #v[#v[8, 9, 9, 11, 13, 15, 15, 5, 7, 7, 8, 11, 14, 14, 12, 6],
     #v[9, 13, 15, 7, 12, 8, 9, 11, 7, 7, 12, 7, 6, 15, 13, 11],
     #v[9, 7, 15, 11, 8, 6, 6, 14, 12, 13, 5, 14, 13, 13, 7, 5],
     #v[15, 5, 8, 11, 14, 14, 6, 14, 6, 9, 12, 9, 12, 5, 15, 8],
     #v[8, 5, 12, 9, 12, 5, 14, 6, 8, 13, 6, 5, 15, 13, 11, 11]]

/-- RL[j], the word left step j reads (R147). -/
def rl (j : Fin 80) : Fin 16 := rlRows[roundOf j][placeOf j]

/-- RR[j], the word right step j reads (R148). -/
def rr (j : Fin 80) : Fin 16 := rrRows[roundOf j][placeOf j]

/-- SL[j], the rotate amount of left step j (R149). -/
def sl (j : Fin 80) : Nat := slRows[roundOf j][placeOf j]

/-- SR[j], the rotate amount of right step j (R149). -/
def sr (j : Fin 80) : Nat := srRows[roundOf j][placeOf j]

end Sys2Proof.Machine
end

