-- ==== Sys2Proof/Machine/Compress.lean ====
section
/-!
DEFINITION. The compression transform COMPRESS (41_compression.md), internal, without an opcode (R72).
-/

namespace Sys2Proof.Machine

/-- The five working registers of one line (10_state.md R28). -/
structure WorkRegs where
  a : Word
  b : Word
  c : Word
  d : Word
  e : Word
  deriving DecidableEq, Repr

/-- The two banks of working registers (R28): the left line and the right line. -/
structure Lines where
  left : WorkRegs
  right : WorkRegs
  deriving DecidableEq, Repr

/-- The step form both lines share (R151) with its register rotation (R154): every value on the right is
the one before the step. -/
def lineStep (f : Word → Word → Word → Word) (x k : Word) (amount : Nat) (w : WorkRegs) : WorkRegs where
  a := w.e
  b := rol (w.a + f w.b w.c w.d + x + k) amount + w.e
  c := w.b
  d := rol w.c 10
  e := w.d

/-- Left step j (R152). -/
def leftStep (x : Vector Word 16) (j : Fin 80) (w : WorkRegs) : WorkRegs :=
  lineStep (boolFun (roundOf j)) x[rl j] kl[roundOf j] (sl j) w

/-- Right step j (R153): the functions in mirrored order (R145). -/
def rightStep (x : Vector Word 16) (j : Fin 80) (w : WorkRegs) : WorkRegs :=
  lineStep (boolFun (4 - roundOf j)) x[rr j] kr[roundOf j] (sr j) w

/-- The body of R159's loop at step j: one left step, then one right step. -/
def stepLines (x : Vector Word 16) (j : Fin 80) (l : Lines) : Lines where
  left := leftStep x j l.left
  right := rightStep x j l.right

/-- The two lines after their first `n` steps (R159's loop over j). -/
def runLines (x : Vector Word 16) (l : Lines) : (n : Nat) → n ≤ 80 → Lines
  | 0, _ => l
  | n + 1, h => stepLines x ⟨n, h⟩ (runLines x l n (Nat.le_of_succ_le h))

/-- The working registers a line starts from (R143). -/
def workRegsOf (h : Chain) : WorkRegs := ⟨h.h0, h.h1, h.h2, h.h3, h.h4⟩

/-- The combination (R155): every right side uses the old H. -/
def combine (old : Chain) (l : Lines) : Chain where
  h0 := old.h1 + l.left.c + l.right.d
  h1 := old.h2 + l.left.d + l.right.e
  h2 := old.h3 + l.left.e + l.right.a
  h3 := old.h4 + l.left.a + l.right.b
  h4 := old.h0 + l.left.b + l.right.c

/-- The transform on a decoded block: 80 steps of both lines, then the combination. -/
def compressSchedule (h : Chain) (x : Vector Word 16) : Chain :=
  combine h (runLines x ⟨workRegsOf h, workRegsOf h⟩ 80 (Nat.le_refl 80))

/-- COMPRESS (R140, R159). None is the violation BLOCK_LENGTH: the block is not 64 bytes (R141). -/
def compress (h : Chain) (blk : Bytes) : Option Chain :=
  if blk.length = 64 then some (compressSchedule h (schedule blk)) else none

end Sys2Proof.Machine
end

