-- ==== Sys2Proof/Machine/Flags.lean ====
section
/-!
DEFINITION. The status bits. The engine has no condition codes (10_state.md R33): PHASE and CAUSE are
its only status, read through STATUS (R27); `have` and the overflow test are computed from COUNT.
-/

namespace Sys2Proof.Machine

/-- The code of PHASE (R25). -/
def phaseCode : Phase → BitVec 2
  | .idle => 0
  | .absorb => 1
  | .spent => 2
  | .fault => 3

/-- The code of CAUSE (R26, 60_exceptions.md R200). -/
def causeCode : Cause → BitVec 3
  | .none => 0
  | .illegalCommand => 1
  | .notInitialised => 2
  | .spentContext => 3
  | .countOverflow => 4
  | .blockLength => 5

/-- STATUS (R27): [1:0] PHASE, [4:2] CAUSE, [7:5] read as zero. -/
def status (s : State) : Byte :=
  ((0 : BitVec 3) ++ causeCode s.cause ++ phaseCode s.phase : BitVec (3 + 3 + 2))

/-- The bytes of a response: its tag, then its data (30_encoding.md R77). -/
def responseBytes : Response → Bytes
  | .ok => [0x00]
  | .digest d => 0x01 :: d
  | .fault c => [0x02, (causeCode c).setWidth 8]

/-- `have` (00_scope.md R14): the number of valid bytes at the front of BUF. -/
def haveOf (count : Count) : Nat :=
  count.toNat / 8 % 64

/-- The advance of COUNT for `n` bytes: modulo 2^64 (40_context_commands.md R102, R103). -/
def advance (count : Count) (n : Nat) : Count :=
  count + BitVec.ofNat 64 (8 * n)

/-- The condition of COUNT_OVERFLOW (R204) for a command that consumes `n` bytes. -/
def overflows (s : State) (n : Nat) : Bool :=
  decide (2 ^ 64 ≤ s.count.toNat + 8 * n) && decide (s.countOverflow = .fault)

end Sys2Proof.Machine
end

