-- ==== Sys2Proof/Machine/Ops.lean ====
section
/-!
DEFINITION. The named operations over the state: responding, taking a fault (60_exceptions.md R207), the
accesses to BUF (00_scope.md R11, 20_memory.md R51), hardware reset (70_reset_and_hazards.md R230) and a
read of STATUS (10_state.md R27).
-/

namespace Sys2Proof.Machine

/-- Give the host one response (R13, R77). -/
def respond (r : Response) (s : State) : State :=
  { s with responses := s.responses ++ [r] }

/-- Fault entry, `raise c` (R207): CAUSE <- c, PHASE <- FAULT, respond FAULT(c), and nothing else. There
is no return from a fault: only hardware reset leaves FAULT (R208). -/
def raise (c : Cause) (s : State) : State :=
  respond (.fault c) { s with cause := c, phase := .fault }

/-- The chaining state of the `n`-th BLOCK_LENGTH fault: unspecified (R207; log entry 7). -/
def freeChain (n : Nat) : Chain :=
  ⟨Config.freeChainWord n 0, Config.freeChainWord n 1, Config.freeChainWord n 2,
   Config.freeChainWord n 3, Config.freeChainWord n 4⟩

/-- Fault entry for BLOCK_LENGTH (R205, R207): it would be found part-way through an Absorb, so H, BUF and
COUNT are unspecified afterwards, free values (log entry 7). No command reaches it (R141). -/
def raiseBlockLength (s : State) : State :=
  raise .blockLength
    { s with
      h := freeChain s.fresh
      buf := Vector.ofFn (Config.freeBufByte s.fresh)
      count := Config.freeCount s.fresh
      fresh := s.fresh + 1 }

/-- Any command in phase FAULT (R208): respond FAULT(CAUSE), change nothing. -/
def respondFault (s : State) : State :=
  respond (.fault s.cause) s

/-- A command whose opcode is reserved (30_encoding.md R74, 60_exceptions.md R201), after the check of
phase FAULT (R206). -/
def reservedCommand (s : State) : State :=
  if s.phase = .fault then respondFault s else raise .illegalCommand s

/-- BUF[off + k] <- p[k] for each k, of the offsets that exist. -/
def bufPut (buf : Buffer) (off : Nat) : Bytes → Buffer
  | [] => buf
  | b :: p => bufPut (buf.setIfInBounds off b) (off + 1) p

/-- `MemWrite(BUF, off, p)` (R11); none outside offsets 0..63, which is BLOCK_LENGTH (R51). -/
def memWrite (buf : Buffer) (off : Nat) (p : Bytes) : Option Buffer :=
  if off + p.length ≤ 64 then some (bufPut buf off p) else none

/-- `MemRead(BUF, off, n)` (R11); none outside offsets 0..63, which is BLOCK_LENGTH (R51). -/
def memRead (buf : Buffer) (off n : Nat) : Option Bytes :=
  if off + n ≤ 64 then some ((buf.toList.drop off).take n) else none

/-- The state with the host's next action taken off its script. -/
def State.afterAction (s : State) (rest : List HostAction) : State :=
  { s with pending := rest }

/-- The action of issuing the command whose bytes these are: none where there is no opcode (R70). -/
def issue : Bytes → List HostAction
  | [] => []
  | op :: p => [.command op p]

/-- Hardware reset (R230, R36): the engine's registers as in `State.reset` (log entries 1 and 2). The
build parameter, the host's script and its observations are not the engine's registers and stay. -/
def hardReset (s : State) : State :=
  { s with
    h := State.reset.h
    buf := State.reset.buf
    count := State.reset.count
    phase := .idle
    cause := .none }

/-- The host's read of STATUS (R27): no side effect on the engine (20_memory.md R58). -/
def readStatus (s : State) : State :=
  { s with statusReads := s.statusReads ++ [status s] }

end Sys2Proof.Machine
end

