-- ==== Sys2Proof/Machine/Context.lean ====
section
/-!
DEFINITION. The meanings of INIT, UPDATE and FINALIZE (40_context_commands.md), each with the checks of the
dispatch in their order (R100, 60_exceptions.md R206).
-/

namespace Sys2Proof.Machine

/-- The direct strides (R107): COMPRESS of the first `n` 64-byte spans of the payload, in order. -/
def strides (h : Chain) (p : Bytes) : Nat → Option Chain
  | 0 => some h
  | n + 1 => (compress h (p.take 64)).bind fun h' => strides h' (p.drop 64) n

/-- The fill path of Absorb (R106 to R108), with BUF's first bytes already counted in `used`: fill BUF,
compress it, compress the strides straight from the payload, copy the tail to offset 0. The loop of R102
runs while 64 bytes remain, which is (L - need) div 64 times. -/
def absorbFill (h : Chain) (buf : Buffer) (used : Nat) (p : Bytes) : Option (Chain × Buffer) :=
  let need := 64 - used
  let rest := p.drop need
  let n := rest.length / 64
  (memWrite buf used (p.take need)).bind fun full =>
  (memRead full 0 64).bind fun blk =>
  (compress h blk).bind fun h1 =>
  (strides h1 rest n).bind fun h2 =>
  (memWrite full 0 (rest.drop (64 * n))).map fun tail => (h2, tail)

/-- `Absorb(p)` (R102): `have` is COUNT's before this call, and COUNT advances first (R103). None is the
violation BLOCK_LENGTH, which no call reaches (R141). -/
def absorb (p : Bytes) (s : State) : Option State :=
  let used := haveOf s.count
  let counted := { s with count := advance s.count p.length }
  if p.length < 64 - used then
    -- the short path (R105)
    (memWrite s.buf used p).map fun buf => { counted with buf := buf }
  else
    (absorbFill s.h s.buf used p).map fun r => { counted with h := r.1, buf := r.2 }

/-- FINALIZE's two calls of Absorb (R110): the pad (R112), then COUNT as it was before the pad (R113). -/
def absorbPadding (s : State) : Option State :=
  (absorb (padBytes (padLen (haveOf s.count))) s).bind (absorb (le64Bytes s.count))

/-- INIT (R101): accepted in IDLE, ABSORB and SPENT; BUF and CAUSE are not written. -/
def execInit (p : Bytes) (s : State) : Host.Outcome State Fault Refusal :=
  .next <|
    if s.phase = .fault then respondFault s
    else if p ≠ [] then raise .illegalCommand s
    else respond .ok { s with h := iv, count := 0, phase := .absorb }

/-- UPDATE (R102 to R109). -/
def execUpdate (p : Bytes) (s : State) : Host.Outcome State Fault Refusal :=
  .next <|
    if s.phase = .fault then respondFault s
    else if s.phase = .idle then raise .notInitialised s
    else if s.phase = .spent then raise .spentContext s
    else if overflows s p.length then raise .countOverflow s
    else
      match absorb p s with
      | none => raiseBlockLength s
      | some t => respond .ok t

/-- FINALIZE (R110 to R115). -/
def execFinalize (p : Bytes) (s : State) : Host.Outcome State Fault Refusal :=
  .next <|
    if s.phase = .fault then respondFault s
    else if p ≠ [] then raise .illegalCommand s
    else if s.phase = .idle then raise .notInitialised s
    else if s.phase = .spent then raise .spentContext s
    else if overflows s (padLen (haveOf s.count)) then raise .countOverflow s
    else
      match absorbPadding s with
      | none => raiseBlockLength s
      | some t => respond (.digest (digestBytes t.h)) { t with phase := .spent }

end Sys2Proof.Machine
end

