-- ==== Sys2Proof/Machine/Dispatch.lean ====
section
/-!
DEFINITION. One arm per command (40_context_commands.md R100).
-/

namespace Sys2Proof.Machine

def exec (i : Instr) (s : State) : Host.Outcome State Fault Refusal :=
  match i with
  | .init p => Sys2Proof.Machine.execInit p s
  | .update p => Sys2Proof.Machine.execUpdate p s
  | .finalize p => Sys2Proof.Machine.execFinalize p s

end Sys2Proof.Machine
end

