-- ==== Sys2Proof/Machine/Step.lean ====
section
/-!
DEFINITION. One step: the engine performs the host's next action (70_reset_and_hazards.md R239, R240), one
command being one transition (00_scope.md R7). It fetches no program (R232).
-/

namespace Sys2Proof.Machine

/-- One step. With nothing pending the engine holds its state (60_exceptions.md R216). -/
def step (s : State) : Host.Outcome State Fault Refusal :=
  match s.pending with
  | [] => .next s
  | .command op p :: rest =>
    match decodeCommand op p with
    | .instr i => exec i (s.afterAction rest)
    | .reservedOpcode _ => .next (reservedCommand (s.afterAction rest))
    | .noOpcode => .next (reservedCommand (s.afterAction rest))
  | .readStatus :: rest => .next (readStatus (s.afterAction rest))
  | .hardwareReset :: rest => .next (hardReset (s.afterAction rest))
  | .commandCutByReset _ _ :: rest => .next (hardReset (s.afterAction rest))

/-- The state in which the host's next action is to issue the command that `nbits` bits `w` give: the
engine fetches nothing, so this stands for the host's issuing it (log entries 3 and 11). -/
def State.withFetchWord (s : State) (nbits w : Nat) : State :=
  { s with pending := issue (tableBytes (nbits / 8) w) ++ s.pending }

end Sys2Proof.Machine
end

