-- ==== Sys2Proof/Machine/Asm.lean ====
section
/-!
DEFINITION. Command programs (30_encoding.md R78 to R80): what a line encodes, the pseudo-command HASH
(R79, 40_context_commands.md R116), and the assembler that reads a line's text. Where R78 does not fix the
spelling, log entry 10 says what is read.
-/

namespace Sys2Proof.Machine

/-- The commands HASH m expands to, in order (R79). -/
def hashCommands (m : Bytes) : List Instr :=
  [.init [], .update m, .finalize []]

/-- The commands of a line (R78, R79). -/
def lineCommands : Line → List Instr
  | .init => [.init []]
  | .update e => [.update (byteExprBytes e)]
  | .finalize => [.finalize []]
  | .hash e => hashCommands (byteExprBytes e)

/-- What the host does for a program: it issues each command in turn (R239). -/
def issueAll (cs : List Instr) : List HostAction :=
  cs.flatMap fun c => issue (encode c)

/-- White space between the parts of a line. -/
def isBlank (c : Char) : Bool :=
  c == ' ' || c == '\t' || c == '\r'

/-- The text without the blanks at its two ends. -/
def trimBlanks (cs : List Char) : List Char :=
  ((cs.dropWhile isBlank).reverse.dropWhile isBlank).reverse

/-- The line up to its comment; a `;` inside a quoted text starts none. -/
def stripComment : Bool → List Char → List Char
  | _, [] => []
  | quoted, c :: cs =>
    if c == ';' && !quoted then []
    else c :: stripComment (if c == '"' then !quoted else quoted) cs

/-- The pieces of an operand between the `++` that stand outside a quoted text; `acc` holds the piece
being read, reversed. -/
def splitAppend : Bool → List Char → List Char → List (List Char)
  | _, acc, [] => [acc.reverse]
  | _, acc, [c] => [(c :: acc).reverse]
  | quoted, acc, c :: d :: cs =>
    if c == '+' && d == '+' && !quoted then acc.reverse :: splitAppend false [] cs
    else splitAppend (if c == '"' then !quoted else quoted) (c :: acc) (d :: cs)

/-- The value of a hex digit. -/
def hexDigit? (c : Char) : Option Nat :=
  if '0' ≤ c ∧ c ≤ '9' then some (c.toNat - '0'.toNat)
  else if 'a' ≤ c ∧ c ≤ 'f' then some (c.toNat - 'a'.toNat + 10)
  else if 'A' ≤ c ∧ c ≤ 'F' then some (c.toNat - 'A'.toNat + 10)
  else none

/-- The bytes of an even number of hex digits, from the left (R78). -/
def hexBytes? : List Char → Option Bytes
  | [] => some []
  | [_] => none
  | hi :: lo :: cs =>
    match hexDigit? hi, hexDigit? lo, hexBytes? cs with
    | some h, some l, some bs => some (BitVec.ofNat 8 (16 * h + l) :: bs)
    | _, _, _ => none

/-- The number some digits of a base spell after the digits read so far. -/
def digits? (base : Nat) : Nat → List Char → Option Nat
  | n, [] => some n
  | n, c :: cs =>
    match hexDigit? c with
    | some d => if d < base then digits? base (base * n + d) cs else none
    | none => none

/-- A number of `rep` and `iota`: decimal, or hexadecimal after `0x`. -/
def number? (cs : List Char) : Option Nat :=
  match trimBlanks cs with
  | [] => none
  | '0' :: 'x' :: [] => none
  | '0' :: 'x' :: ds => digits? 16 0 ds
  | ds => digits? 10 0 ds

/-- The two arguments of `rep` and `iota`, a byte and a number, up to the closing parenthesis. -/
def byteAndNumber? (cs : List Char) : Option (Byte × Nat) :=
  match (trimBlanks cs).reverse with
  | ')' :: inside =>
    let cs := inside.reverse
    match number? (cs.takeWhile (· != ',')), number? ((cs.dropWhile (· != ',')).drop 1) with
    | some b, some n => if b < 256 then some (BitVec.ofNat 8 b, n) else none
    | _, _ => none
  | _ => none

/-- The text up to its closing quote, all of it ASCII. -/
def quotedText? : List Char → Option (List Char)
  | [] => none
  | ['"'] => some []
  | c :: cs => if c == '"' || 128 ≤ c.toNat then none else (quotedText? cs).map (c :: ·)

/-- One byte literal of R78, none of them the empty form: that one is `operand?`'s (DESIGN CHOICE, log
entry 10). -/
def byteLiteral? (cs : List Char) : Option ByteExpr :=
  match trimBlanks cs with
  | '"' :: cs => (quotedText? cs).map .text
  | '0' :: 'x' :: ds => if ds.isEmpty then none else (hexBytes? ds).map .hex
  | 'r' :: 'e' :: 'p' :: '(' :: cs => (byteAndNumber? cs).map fun a => .rep a.1 a.2
  | 'i' :: 'o' :: 't' :: 'a' :: '(' :: cs => (byteAndNumber? cs).map fun a => .iota a.1 a.2
  | _ => none

/-- Literals joined with `++` (R78), read from the left. R78 leaves open whether the empty form may be one of
the pieces: an empty piece is refused (DESIGN CHOICE, log entry 10). -/
def joinLiterals? : List (List Char) → Option ByteExpr
  | [] => none
  | [cs] => byteLiteral? cs
  | cs :: rest =>
    match byteLiteral? cs, joinLiterals? rest with
    | some x, some y => some (.append x y)
    | _, _ => none

/-- The operand of UPDATE and HASH: empty, or after a blank the literals joined with `++`. -/
def operand? (cs : List Char) : Option ByteExpr :=
  if cs.isEmpty then some .empty
  else if (cs.head?.map isBlank).getD false then joinLiterals? (splitAppend false [] cs)
  else none

/-- Reading one line (R78): none where it is no line of a program, `some none` where it holds only blanks
and a comment. The mnemonic is case-insensitive. -/
def readLine? (text : List Char) : Option (Option Line) :=
  let cs := trimBlanks (stripComment false text)
  let operand := cs.dropWhile Char.isAlpha
  let name := (cs.takeWhile Char.isAlpha).map Char.toUpper
  if cs.isEmpty then some none
  else if name = ['I', 'N', 'I', 'T'] then if operand.isEmpty then some (some .init) else none
  else if name = ['F', 'I', 'N', 'A', 'L', 'I', 'Z', 'E'] then
    if operand.isEmpty then some (some .finalize) else none
  else if name = ['U', 'P', 'D', 'A', 'T', 'E'] then (operand? operand).map fun e => some (.update e)
  else if name = ['H', 'A', 'S', 'H'] then (operand? operand).map fun e => some (.hash e)
  else none

/-- The commands of a line's text, as the bytes the host sends for each (R70, R78). -/
def assembleLine? (text : List Char) : Option (List Bytes) :=
  (readLine? text).map fun l => (l.map lineCommands).getD [] |>.map encode

end Sys2Proof.Machine
end

