-- ==== Sys2Proof/Safety.lean ====
section
/-!
DEFINITION. What counts as a good run, in the terms the statements use: clean entry and success
(70_reset_and_hazards.md R239, R241), the message digest as a function of the message alone (00_scope.md
R19), the context of a message (10_state.md R24), the invariant every step keeps, and which states no
response can tell apart (R24, R35, R36).
-/

namespace Sys2Proof.Safety

open Sys2Proof.Machine

/-- "Clean entry means PHASE ≠ FAULT" (R241). -/
abbrev CleanEntry (s : State) : Prop :=
  s.phase ≠ .fault

/-- A run has succeeded when its last response is not FAULT and PHASE ≠ FAULT (R239). -/
def Succeeded (s : State) : Prop :=
  (∀ c, s.responses.getLast? ≠ some (.fault c)) ∧ s.phase ≠ .fault

/-- The bytes of BUF that count: the first `have` (10_state.md R22, 00_scope.md R14). -/
def validPrefix (s : State) : Bytes :=
  s.buf.toList.take (haveOf s.count)

/-- The chaining state after the first `n` 64-byte blocks of `m`, in message order (20_memory.md R62),
each mixed in by the transform (41_compression.md R159). -/
def chainOver : Nat → Chain → Bytes → Chain
  | 0, h, _ => h
  | n + 1, h, m => chainOver n (compressSchedule h (schedule (m.take 64))) (m.drop 64)

/-- The message with its padding: the marker, the zeros and the bit length (R111 to R113), the length
modulo 2^64. -/
def paddedMessage (m : Bytes) : Bytes :=
  m ++ (padBytes (padLen (m.length % 64)) ++ le64Bytes (BitVec.ofNat 64 (8 * m.length)))

/-- RIPEMD-160 of a message, in one piece: the digest a run must give (R239), with no buffer, no counter
and no commands. -/
def ripemd160 (m : Bytes) : Bytes :=
  digestBytes (chainOver ((paddedMessage m).length / 64) iv (paddedMessage m))

/-- The context of the message `m`: what H, COUNT and the valid bytes of BUF are after `m` has been
absorbed (10_state.md R23, R24; 40_context_commands.md R109). -/
structure Holds (m : Bytes) (s : State) : Prop where
  chain : s.h = chainOver (m.length / 64) iv m
  bits : s.count = BitVec.ofNat 64 (8 * m.length)
  tail : validPrefix s = m.drop (64 * (m.length / 64))

/-- The invariant: CAUSE says whether the engine has faulted (60_exceptions.md R209), BLOCK_LENGTH has
not been raised (R205), COUNT counts whole bytes (10_state.md R23), a spent context ends on a block
boundary (40_context_commands.md R115), and every digest given has 20 bytes (30_encoding.md R77). -/
structure Inv (s : State) : Prop where
  cause_none_iff : s.cause = .none ↔ s.phase ≠ .fault
  no_block_length : s.cause ≠ .blockLength
  whole_bytes : s.count.toNat % 8 = 0
  spent_on_boundary : s.phase = .spent → haveOf s.count = 0
  digest_length : ∀ d, Response.digest d ∈ s.responses → d.length = 20

/-- Two states no response tells apart: equal in all the host can see, and, where a context is live, equal
in H, COUNT and the valid bytes of BUF (10_state.md R24, R35). The registers the spec leaves unspecified
(R36) and the stale bytes of BUF (R22) may differ. -/
structure Indistinguishable (s t : State) : Prop where
  phase : s.phase = t.phase
  cause : s.cause = t.cause
  countOverflow : s.countOverflow = t.countOverflow
  pending : s.pending = t.pending
  responses : s.responses = t.responses
  statusReads : s.statusReads = t.statusReads
  chain : s.phase = .absorb → s.h = t.h
  bits : s.phase = .absorb → s.count = t.count
  tail : s.phase = .absorb → validPrefix s = validPrefix t

/-- Fault entry as R207 gives it: CAUSE and PHASE written, FAULT responded, nothing else. -/
def faultEntry (c : Cause) (s : State) : State :=
  { s with cause := c, phase := .fault, responses := s.responses ++ [.fault c] }

/-- The fault a command meets first, in the order of R206 after the check of phase FAULT: none where it
meets none. -/
def firstFault (op : Byte) (p : Bytes) (s : State) : Option Cause :=
  if op ≠ 0x01 ∧ op ≠ 0x02 ∧ op ≠ 0x03 then some .illegalCommand
  else if (op = 0x01 ∨ op = 0x03) ∧ p ≠ [] then some .illegalCommand
  else if op ≠ 0x01 ∧ s.phase = .idle then some .notInitialised
  else if op ≠ 0x01 ∧ s.phase = .spent then some .spentContext
  else if s.countOverflow = .fault ∧
      ((op = 0x02 ∧ 2 ^ 64 ≤ s.count.toNat + 8 * p.length) ∨
        (op = 0x03 ∧ 2 ^ 64 ≤ s.count.toNat + 8 * padLen (haveOf s.count))) then some .countOverflow
  else none

/-- The steps of the two lines in an order of one's choice (41_compression.md R157): `true` takes the left
line's next step, `false` the right line's; `i` and `j` count the steps each line has taken. -/
def runOrder (x : Vector Word 16) : (order : List Bool) → (i j : Nat) → Lines → Lines
  | [], _, _, l => l
  | true :: order, i, j, l =>
    runOrder x order (i + 1) j (if h : i < 80 then { l with left := leftStep x ⟨i, h⟩ l.left } else l)
  | false :: order, i, j, l =>
    runOrder x order i (j + 1) (if h : j < 80 then { l with right := rightStep x ⟨j, h⟩ l.right } else l)

/-- The host's commands for one message given in pieces (R234): INIT, one UPDATE for each piece, FINALIZE. -/
def messageScript (pieces : List Bytes) : List HostAction :=
  .command 0x01 [] :: (pieces.map fun p => .command 0x02 p) ++ [.command 0x03 []]

end Sys2Proof.Safety
end

