-- ==== Sys2Proof/Certificates/Slice0/Obligations.lean ====
section
/-!
DEFINITION. The statements about the engine, each after the rules of spec/ its docstring names.
-/

open Sys2Proof
open Sys2Proof.Machine
open Sys2Proof.Safety

/-! ### Bitwise primitives (42_bitwise_primitives.md) -/

/-- R180: the formula of the rotate, what it does to each bit, and its worked example. -/
def Obligations.RotateMovesEachBit : Prop :=
  (∀ (x : Word) (n : Nat), 0 < n → n < 32 →
    rol x n = ((x <<< n) ||| (x >>> (32 - n))) ∧
    ∀ i, i < 32 → (rol x n).getLsbD i = x.getLsbD ((i + 32 - n) % 32)) ∧
  rol 0x80000001 1 = 0x00000003 ∧ rol 0x12345678 10 = 0xD159E048

/-- R181 to R185, R187: each function bit by bit; f1 and f3 select. -/
def Obligations.BooleanFunctionsBitByBit : Prop :=
  ∀ (x y z : Word) (i : Nat), i < 32 →
    (f0 x y z).getLsbD i = (x.getLsbD i ^^ y.getLsbD i ^^ z.getLsbD i) ∧
    (f1 x y z).getLsbD i = (if x.getLsbD i then y.getLsbD i else z.getLsbD i) ∧
    (f2 x y z).getLsbD i = ((x.getLsbD i || !y.getLsbD i) ^^ z.getLsbD i) ∧
    (f3 x y z).getLsbD i = (if z.getLsbD i then x.getLsbD i else y.getLsbD i) ∧
    (f4 x y z).getLsbD i = (x.getLsbD i ^^ (y.getLsbD i || !z.getLsbD i))

/-! ### The compression transform (41_compression.md) -/

/-- R145, R146: the function and the constant of each round of each line. -/
def Obligations.RoundFunctionsAreMirrored : Prop :=
  ∀ (x : Vector Word 16) (w : WorkRegs) (j : Fin 80),
    (j.val < 16 →
      leftStep x j w = lineStep f0 x[rl j] 0x00000000 (sl j) w ∧
      rightStep x j w = lineStep f4 x[rr j] 0x50A28BE6 (sr j) w) ∧
    (16 ≤ j.val ∧ j.val < 32 →
      leftStep x j w = lineStep f1 x[rl j] 0x5A827999 (sl j) w ∧
      rightStep x j w = lineStep f3 x[rr j] 0x5C4DD124 (sr j) w) ∧
    (32 ≤ j.val ∧ j.val < 48 →
      leftStep x j w = lineStep f2 x[rl j] 0x6ED9EBA1 (sl j) w ∧
      rightStep x j w = lineStep f2 x[rr j] 0x6D703EF3 (sr j) w) ∧
    (48 ≤ j.val ∧ j.val < 64 →
      leftStep x j w = lineStep f3 x[rl j] 0x8F1BBCDC (sl j) w ∧
      rightStep x j w = lineStep f1 x[rr j] 0x7A6D76E9 (sr j) w) ∧
    (64 ≤ j.val →
      leftStep x j w = lineStep f4 x[rl j] 0xA953FD4E (sl j) w ∧
      rightStep x j w = lineStep f0 x[rr j] 0x00000000 (sr j) w)

/-- R147 to R149: each row of RL and RR is a permutation of 0..15 (16 entries, none twice), and every rotate
amount is one of those R149 lists. -/
def Obligations.TableRowsArePermutations : Prop :=
  (∀ r : Fin 5, (rlRows[r]).toList.Nodup ∧ (rrRows[r]).toList.Nodup) ∧
  ∀ j : Fin 80, sl j ∈ [5, 6, 7, 8, 9, 11, 12, 13, 14, 15] ∧ sr j ∈ [5, 6, 7, 8, 9, 11, 12, 13, 14, 15]

/-- R154 with R151's T: the registers after one step. -/
def Obligations.StepRotatesRegisters : Prop :=
  ∀ (f : Word → Word → Word → Word) (x k : Word) (amount : Nat) (a b c d e : Word),
    lineStep f x k amount ⟨a, b, c, d, e⟩ = ⟨e, rol (a + f b c d + x + k) amount + e, b, rol c 10, d⟩

/-- R157: every interleaving of the 160 steps that keeps each line's own order gives the same two lines. -/
def Obligations.LinesInterleaveFreely : Prop :=
  ∀ (x : Vector Word 16) (l : Lines) (order : List Bool),
    order.count true = 80 → order.count false = 80 →
    runOrder x order 0 0 l = runLines x l 80 (Nat.le_refl 80)

/-- R141: COMPRESS refuses exactly the blocks that are not 64 bytes, and no command raises BLOCK_LENGTH. -/
def Obligations.BlockLengthIsNeverRaised : Prop :=
  (∀ (h : Chain) (blk : Bytes), compress h blk = none ↔ blk.length ≠ 64) ∧
  ∀ (i : Instr) (s t : State), exec i s = .next t → s.cause ≠ .blockLength → t.cause ≠ .blockLength

/-- R155, with R143's start: the combination of the two lines with the old H. -/
def Obligations.CombinationUsesOldState : Prop :=
  ∀ (h : Chain) (blk : Bytes), blk.length = 64 →
    ∀ l, l = runLines (schedule blk)
        ⟨⟨h.h0, h.h1, h.h2, h.h3, h.h4⟩, ⟨h.h0, h.h1, h.h2, h.h3, h.h4⟩⟩ 80 (Nat.le_refl 80) →
      compress h blk = some
        ⟨h.h1 + l.left.c + l.right.d, h.h2 + l.left.d + l.right.e, h.h3 + l.left.e + l.right.a,
         h.h4 + l.left.a + l.right.b, h.h0 + l.left.b + l.right.c⟩

/-- R52: the message words of a block, little-endian, as `le32` and as numbers. -/
def Obligations.MessageWordsAreLittleEndian : Prop :=
  ∀ (blk : Bytes) (i : Fin 16), blk.length = 64 →
    (schedule blk)[i] = le32 (blk.getD (4 * i.val) 0) (blk.getD (4 * i.val + 1) 0)
      (blk.getD (4 * i.val + 2) 0) (blk.getD (4 * i.val + 3) 0) ∧
    ((schedule blk)[i]).toNat = (blk.getD (4 * i.val) 0).toNat + 2 ^ 8 * (blk.getD (4 * i.val + 1) 0).toNat
      + 2 ^ 16 * (blk.getD (4 * i.val + 2) 0).toNat + 2 ^ 24 * (blk.getD (4 * i.val + 3) 0).toNat

/-- R12: the packings, byte 0 the least significant, and that `le32_bytes` inverts `le32`. -/
def Obligations.PackingsAreInverse : Prop :=
  (∀ b0 b1 b2 b3 : Byte,
    le32 b0 b1 b2 b3 =
      b0.setWidth 32 ||| b1.setWidth 32 <<< 8 ||| b2.setWidth 32 <<< 16 ||| b3.setWidth 32 <<< 24 ∧
    le32Bytes (le32 b0 b1 b2 b3) = [b0, b1, b2, b3]) ∧
  (∀ w : Word,
    le32Bytes w = [w.extractLsb' 0 8, w.extractLsb' 8 8, w.extractLsb' 16 8, w.extractLsb' 24 8] ∧
    le32 (w.extractLsb' 0 8) (w.extractLsb' 8 8) (w.extractLsb' 16 8) (w.extractLsb' 24 8) = w) ∧
  ∀ v : Count, (le64Bytes v).length = 8 ∧ ∀ k, k < 8 → (le64Bytes v)[k]? = some (v.extractLsb' (8 * k) 8)

/-- R54: the digest is the five words little-endian, word 0 first, in 20 bytes. -/
def Obligations.DigestIsWordsInOrder : Prop :=
  ∀ h0 h1 h2 h3 h4 : Word,
    digestBytes ⟨h0, h1, h2, h3, h4⟩
      = le32Bytes h0 ++ le32Bytes h1 ++ le32Bytes h2 ++ le32Bytes h3 ++ le32Bytes h4 ∧
    (digestBytes ⟨h0, h1, h2, h3, h4⟩).length = 20

/-! ### Encoding (30_encoding.md) -/

/-- R73: decoding an opcode byte is total and gives one of four. -/
def Obligations.OpcodeDecodingIsTotal : Prop :=
  ∀ op : Byte,
    (decodeOp op = .init ↔ op = 0x01) ∧ (decodeOp op = .update ↔ op = 0x02) ∧
    (decodeOp op = .finalize ↔ op = 0x03) ∧
    (decodeOp op = .reserved ↔ op ≠ 0x01 ∧ op ≠ 0x02 ∧ op ≠ 0x03)

/-- R70, R72, R74: a transaction's bytes decode to a command exactly if they are that command's encoding, and
are rejected by name exactly if the opcode is reserved or there is none. -/
def Obligations.DecodeAndEncodeAgree : Prop :=
  (∀ (bs : Bytes) (i : Instr), decodeBytes bs = .instr i ↔ bs = encode i) ∧
  (∀ (bs : Bytes) (op : Byte), decodeBytes bs = .reservedOpcode op ↔
    op ≠ 0x01 ∧ op ≠ 0x02 ∧ op ≠ 0x03 ∧ ∃ p, bs = op :: p) ∧
  ∀ bs : Bytes, decodeBytes bs = .noOpcode ↔ bs = []

/-- R80's worked encodings, and the reserved opcode 0x00 (R74). -/
def Obligations.WorkedEncodingsDecode : Prop :=
  decodeBytes [0b00000001] = .instr (.init []) ∧
  decodeBytes [0b00000010, 0x61, 0x62, 0x63] = .instr (.update [0x61, 0x62, 0x63]) ∧
  decodeBytes [0b00000010] = .instr (.update []) ∧
  decodeBytes [0b00000011] = .instr (.finalize []) ∧
  decodeBytes [0b00000000] = .reservedOpcode 0

/-- R79: HASH expands to INIT, UPDATE, FINALIZE, and has no opcode of its own. -/
def Obligations.HashExpandsToThreeCommands : Prop :=
  ∀ e : ByteExpr, (lineCommands (.hash e)).map encode = [[0x01], 0x02 :: byteExprBytes e, [0x03]]

/-! ### Status, reset and the host (10_state.md, 70_reset_and_hazards.md) -/

/-- R27's fields of STATUS, with the codes of R25 and of R26 (R200). -/
def Obligations.StatusReflectsPhaseAndCause : Prop :=
  (∀ s : State,
    (status s).extractLsb' 0 2 = phaseCode s.phase ∧ (status s).extractLsb' 2 3 = causeCode s.cause ∧
    (status s).extractLsb' 5 3 = 0) ∧
  (phaseCode .idle = 0 ∧ phaseCode .absorb = 1 ∧ phaseCode .spent = 2 ∧ phaseCode .fault = 3) ∧
  causeCode .none = 0 ∧ causeCode .illegalCommand = 1 ∧ causeCode .notInitialised = 2 ∧
  causeCode .spentContext = 3 ∧ causeCode .countOverflow = 4 ∧ causeCode .blockLength = 5

/-- R27, R58: a read of STATUS gives its value and changes nothing of the engine. -/
def Obligations.ReadingStatusHasNoSideEffect : Prop :=
  ∀ (s : State) (rest : List HostAction), s.pending = .readStatus :: rest →
    step s = .next { s with pending := rest, statusReads := s.statusReads ++ [status s] }

/-- R36's stated values: the phase, the cause and STATUS right after reset. (H, BUF and COUNT are unspecified
there and have no clause here.) -/
def Obligations.ResetIsIdleWithoutFault : Prop :=
  State.reset.phase = .idle ∧ State.reset.cause = .none ∧ status State.reset = 0x00

/-- R230, R231: hardware reset, also one that cuts a command short: IDLE, NONE, STATUS 0x00, no response. -/
def Obligations.HardwareResetReturnsToIdle : Prop :=
  ∀ (s : State) (rest : List HostAction),
    (s.pending = .hardwareReset :: rest ∨ ∃ op p, s.pending = .commandCutByReset op p :: rest) →
    ∃ t, step s = .next t ∧ t.phase = .idle ∧ t.cause = .none ∧ status t = 0x00 ∧
      t.responses = s.responses ∧ t.statusReads = s.statusReads ∧ t.pending = rest ∧
      t.countOverflow = s.countOverflow

/-- R216: with nothing to do the engine holds its state. -/
def Obligations.EngineHoldsBetweenCommands : Prop :=
  ∀ s : State, s.pending = [] → step s = .next s

/-- R7, R100: when the bytes of the host's next command decode to a command, a step is that command's meaning
on the state with the action taken off the host's script. -/
def Obligations.StepRunsTheDecodedCommand : Prop :=
  ∀ (s : State) (op : Byte) (p : Bytes) (rest : List HostAction) (i : Instr),
    s.pending = .command op p :: rest → decodeBytes (op :: p) = .instr i →
    step s = exec i { s with pending := rest }

/-- R13, R117: no step stops; every action of the host ends in a next state. -/
def Obligations.EveryStepAnswers : Prop :=
  ∀ s : State, ∃ t, step s = .next t

/-- R8: COUNT_OVERFLOW is a parameter: no step writes it. -/
def Obligations.ParameterNeverChanges : Prop :=
  ∀ s t : State, step s = .next t → t.countOverflow = s.countOverflow

/-! ### INIT (40_context_commands.md R101) -/

/-- R101: INIT outside FAULT; on a payload it raises ILLEGAL_COMMAND; in FAULT it is refused. -/
def Obligations.InitCreatesAFreshContext : Prop :=
  (∀ s : State, s.phase ≠ .fault →
    exec (.init []) s = .next
      { s with
        h := ⟨0x67452301, 0xEFCDAB89, 0x98BADCFE, 0x10325476, 0xC3D2E1F0⟩
        count := 0
        phase := .absorb
        responses := s.responses ++ [.ok] }) ∧
  (∀ (s : State) (p : Bytes), s.phase ≠ .fault → p ≠ [] →
    exec (.init p) s = .next (faultEntry .illegalCommand s)) ∧
  ∀ (s : State) (p : Bytes), s.phase = .fault →
    exec (.init p) s = .next { s with responses := s.responses ++ [.fault s.cause] }

/-- The frame of INIT, on every path: BUF (R101, D17), the parameter, the host's script, its reads of STATUS
and the free-value counter never change; CAUSE changes only to ILLEGAL_COMMAND; H and COUNT change only where
INIT succeeds; one response is given. -/
def Obligations.InitFrame : Prop :=
  ∀ (p : Bytes) (s t : State), exec (.init p) s = .next t →
    t.buf = s.buf ∧ t.countOverflow = s.countOverflow ∧ t.pending = s.pending ∧
    t.statusReads = s.statusReads ∧ t.fresh = s.fresh ∧
    (t.cause = s.cause ∨ (p ≠ [] ∧ s.phase ≠ .fault ∧ t.cause = .illegalCommand)) ∧
    (p ≠ [] ∨ s.phase = .fault → t.h = s.h ∧ t.count = s.count) ∧
    ∃ r, t.responses = s.responses ++ [r]

/-! ### UPDATE (40_context_commands.md R102 to R109) -/

/-- R102, R103, R104, R109: UPDATE in ABSORB, where the counter does not overflow into a fault. COUNT advances
by the payload modulo 2^64, the (have + L) div 64 complete blocks of the valid bytes and the payload are
compressed in order, and what remains is the new valid prefix. -/
def Obligations.UpdateAbsorbsThePayload : Prop :=
  ∀ (p : Bytes) (s : State), s.phase = .absorb →
    ¬(s.countOverflow = .fault ∧ 2 ^ 64 ≤ s.count.toNat + 8 * p.length) →
    ∃ t, exec (.update p) s = .next t ∧
      t.count.toNat = (s.count.toNat + 8 * p.length) % 2 ^ 64 ∧
      haveOf t.count = (haveOf s.count + p.length) % 64 ∧
      t.h = chainOver ((haveOf s.count + p.length) / 64) s.h (validPrefix s ++ p) ∧
      validPrefix t = (validPrefix s ++ p).drop (64 * ((haveOf s.count + p.length) / 64)) ∧
      t.phase = .absorb ∧ t.cause = s.cause ∧ t.responses = s.responses ++ [.ok]

/-- R105: the short path. The payload is appended to the valid bytes at offset have, and no block is
processed. -/
def Obligations.UpdateShortPathAppends : Prop :=
  ∀ (p : Bytes) (s : State), s.phase = .absorb →
    ¬(s.countOverflow = .fault ∧ 2 ^ 64 ≤ s.count.toNat + 8 * p.length) →
    p.length < 64 - haveOf s.count →
    ∃ t, exec (.update p) s = .next t ∧ t.h = s.h ∧ haveOf t.count = haveOf s.count + p.length ∧
      ∀ i : Fin 64, i.val < haveOf s.count + p.length → t.buf[i] =
        if haveOf s.count ≤ i.val then p.getD (i.val - haveOf s.count) 0 else s.buf[i]

/-- R106, R107, R108: the other path. BUF is filled with the first need bytes and compressed, the strides are
compressed straight from the payload without a write to BUF, and the tail goes to offset 0; beyond it the bytes
are those of the filled block (R107). -/
def Obligations.UpdateFillPathCompresses : Prop :=
  ∀ (p : Bytes) (s : State) (need tail : Nat), s.phase = .absorb →
    ¬(s.countOverflow = .fault ∧ 2 ^ 64 ≤ s.count.toNat + 8 * p.length) →
    need = 64 - haveOf s.count → need ≤ p.length → tail = (p.length - need) % 64 →
    ∃ t h1, exec (.update p) s = .next t ∧
      compress s.h (validPrefix s ++ p.take need) = some h1 ∧
      t.h = chainOver ((p.length - need) / 64) h1 (p.drop need) ∧
      haveOf t.count = tail ∧
      ∀ i : Fin 64, t.buf[i] =
        if i.val < tail then p.getD (p.length - tail + i.val) 0
        else if haveOf s.count ≤ i.val then p.getD (i.val - haveOf s.count) 0
        else s.buf[i]

/-- R102's corner case L = 0: an UPDATE with an empty payload changes nothing but the responses. -/
def Obligations.EmptyUpdateChangesNothing : Prop :=
  ∀ s : State, s.phase = .absorb →
    exec (.update []) s = .next { s with responses := s.responses ++ [.ok] }

/-- The frame of UPDATE, on every path: the parameter, the host's script, its reads of STATUS and the
free-value counter never change; where PHASE stays, CAUSE stays; where it does not, the engine faulted and H,
BUF and COUNT kept their values; one response is given. On the short path every byte of BUF but those appended
keeps its value: for the stale bytes this is R22's "Only UPDATE writes BUF" and the model's choice to hold them
(log entry 6). (The fill path is in UpdateFillPathCompresses.) -/
def Obligations.UpdateFrame : Prop :=
  ∀ (p : Bytes) (s t : State), exec (.update p) s = .next t →
    t.countOverflow = s.countOverflow ∧ t.pending = s.pending ∧ t.statusReads = s.statusReads ∧
    t.fresh = s.fresh ∧ (t.phase = s.phase ∨ t.phase = .fault) ∧ (t.phase = s.phase → t.cause = s.cause) ∧
    (t.phase = .fault → t.h = s.h ∧ t.buf = s.buf ∧ t.count = s.count) ∧
    (t.phase = .absorb → haveOf s.count + p.length < 64 →
      ∀ i : Fin 64, i.val < haveOf s.count ∨ haveOf s.count + p.length ≤ i.val → t.buf[i] = s.buf[i]) ∧
    ∃ r, t.responses = s.responses ++ [r]

/-- R109: two UPDATEs and one UPDATE with both payloads leave the same H, COUNT and valid prefix. -/
def Obligations.ChunkingLeavesTheSameContext : Prop :=
  ∀ (a b : Bytes) (s : State), s.phase = .absorb →
    ¬(s.countOverflow = .fault ∧ 2 ^ 64 ≤ s.count.toNat + 8 * (a.length + b.length)) →
    ∃ t u v, exec (.update a) s = .next t ∧ exec (.update b) t = .next u ∧
      exec (.update (a ++ b)) s = .next v ∧
      u.h = v.h ∧ u.count = v.count ∧ validPrefix u = validPrefix v ∧ u.phase = v.phase

/-! ### FINALIZE (40_context_commands.md R110 to R115) -/

/-- R111: padlen from the bit count, its bounds, and that the padded message ends on a block boundary. -/
def Obligations.PadLengthEndsABlock : Prop :=
  ∀ (count : Count) (used : Nat), used = count.toNat / 8 % 64 →
    padLen (haveOf count) = (if 64 - used < 9 then 64 - used + 64 else 64 - used) ∧
    9 ≤ padLen (haveOf count) ∧ padLen (haveOf count) ≤ 72 ∧
    (used ≤ 55 → used + padLen (haveOf count) = 64) ∧ (56 ≤ used → used + padLen (haveOf count) = 128)

/-- R112: the pad's bytes. -/
def Obligations.PadIsMarkerThenZeros : Prop :=
  ∀ padlen : Nat, 9 ≤ padlen →
    padBytes padlen = 0x80 :: List.replicate (padlen - 9) 0x00 ∧ (padBytes padlen).length = padlen - 8

/-- R110 to R115: FINALIZE in ABSORB, where the counter does not overflow into a fault. The valid bytes, the
pad and the length of COUNT before the pad are compressed, the response is the digest of the new H, PHASE is
SPENT, COUNT counts the padding too, and BUF holds only stale bytes (have is 0). -/
def Obligations.FinalizeRespondsTheDigest : Prop :=
  ∀ s : State, s.phase = .absorb →
    ¬(s.countOverflow = .fault ∧ 2 ^ 64 ≤ s.count.toNat + 8 * padLen (haveOf s.count)) →
    ∃ t, exec (.finalize []) s = .next t ∧
      t.h = chainOver ((haveOf s.count + padLen (haveOf s.count)) / 64) s.h
        (validPrefix s ++ (padBytes (padLen (haveOf s.count)) ++ le64Bytes s.count)) ∧
      t.responses = s.responses ++ [.digest (digestBytes t.h)] ∧ t.phase = .spent ∧ t.cause = s.cause ∧
      t.count.toNat = (s.count.toNat + 8 * padLen (haveOf s.count)) % 2 ^ 64 ∧ haveOf t.count = 0

/-- R112, R113 with R105 to R108: what a successful FINALIZE leaves in BUF. The length field stands at 56..63;
below it, with have ≤ 55 the bytes below have keep their values and the pad follows, with have ≥ 56 the pad's
zeros stand. All 64 are stale then: that they keep these values is the model's choice to hold them (log
entry 6). -/
def Obligations.FinalizeBufferBytes : Prop :=
  ∀ (s t : State), s.phase = .absorb → exec (.finalize []) s = .next t → t.phase = .spent →
    ∀ i : Fin 64, t.buf[i] =
      if 56 ≤ i.val then (le64Bytes s.count).getD (i.val - 56) 0
      else if 56 ≤ haveOf s.count then 0x00
      else if i.val < haveOf s.count then s.buf[i]
      else if i.val = haveOf s.count then 0x80
      else 0x00

/-- The frame of FINALIZE, on every path: the parameter, the host's script, its reads of STATUS and the
free-value counter never change; CAUSE changes only where the engine faults; H, BUF and COUNT change only where
FINALIZE succeeds; one response is given. -/
def Obligations.FinalizeFrame : Prop :=
  ∀ (p : Bytes) (s t : State), exec (.finalize p) s = .next t →
    t.countOverflow = s.countOverflow ∧ t.pending = s.pending ∧ t.statusReads = s.statusReads ∧
    t.fresh = s.fresh ∧ (t.phase = .spent ∨ t.phase = .fault) ∧ (t.phase = .spent → t.cause = s.cause) ∧
    (t.phase = .fault → t.h = s.h ∧ t.buf = s.buf ∧ t.count = s.count) ∧
    ∃ r, t.responses = s.responses ++ [r]

/-! ### Faults (60_exceptions.md) -/

/-- R201: a reserved opcode, and a payload on INIT or FINALIZE, raise ILLEGAL_COMMAND outside FAULT. -/
def Obligations.IllegalCommandsFault : Prop :=
  (∀ (s : State) (op : Byte) (p : Bytes) (rest : List HostAction), s.phase ≠ .fault →
    s.pending = .command op p :: rest → op = 0x00 ∨ 0x04 ≤ op →
    step s = .next (faultEntry .illegalCommand { s with pending := rest })) ∧
  ∀ (s : State) (p : Bytes), s.phase ≠ .fault → p ≠ [] →
    exec (.init p) s = .next (faultEntry .illegalCommand s) ∧
    exec (.finalize p) s = .next (faultEntry .illegalCommand s)

/-- R202: UPDATE and FINALIZE in IDLE raise NOT_INITIALISED. -/
def Obligations.UseBeforeInitFaults : Prop :=
  ∀ s : State, s.phase = .idle →
    (∀ p, exec (.update p) s = .next (faultEntry .notInitialised s)) ∧
    exec (.finalize []) s = .next (faultEntry .notInitialised s)

/-- R203: UPDATE and FINALIZE in SPENT raise SPENT_CONTEXT. -/
def Obligations.ReuseAfterFinalizeFaults : Prop :=
  ∀ s : State, s.phase = .spent →
    (∀ p, exec (.update p) s = .next (faultEntry .spentContext s)) ∧
    exec (.finalize []) s = .next (faultEntry .spentContext s)

/-- R204: COUNT_OVERFLOW under the parameter Fault, and never under Wrap. -/
def Obligations.CountOverflowFaults : Prop :=
  (∀ (s : State) (p : Bytes), s.phase = .absorb → s.countOverflow = .fault →
    2 ^ 64 ≤ s.count.toNat + 8 * p.length →
    exec (.update p) s = .next (faultEntry .countOverflow s)) ∧
  (∀ s : State, s.phase = .absorb → s.countOverflow = .fault →
    2 ^ 64 ≤ s.count.toNat + 8 * padLen (haveOf s.count) →
    exec (.finalize []) s = .next (faultEntry .countOverflow s)) ∧
  ∀ (i : Instr) (s t : State), s.countOverflow = .wrap → exec i s = .next t →
    t.cause = .countOverflow → s.cause = .countOverflow

/-- R206: the first fault in the order of the list is the one taken, in FAULT none is, and a command that meets
none of them succeeds. -/
def Obligations.FirstFaultInOrderIsTaken : Prop :=
  ∀ (s : State) (op : Byte) (p : Bytes) (rest : List HostAction), s.pending = .command op p :: rest →
    (s.phase = .fault →
      step s = .next { s with pending := rest, responses := s.responses ++ [.fault s.cause] }) ∧
    (∀ c, s.phase ≠ .fault → firstFault op p s = some c →
      step s = .next (faultEntry c { s with pending := rest })) ∧
    (s.phase ≠ .fault → firstFault op p s = none →
      ∃ t, step s = .next t ∧ t.phase ≠ .fault ∧ t.cause = s.cause)

/-- R207: entering FAULT writes CAUSE and PHASE, responds FAULT(CAUSE), and keeps H, BUF and COUNT. (The
exception the rule makes for BLOCK_LENGTH is never reached.) -/
def Obligations.FaultEntryIsPrecise : Prop :=
  ∀ (i : Instr) (s t : State), exec i s = .next t → s.phase ≠ .fault → t.phase = .fault →
    t.h = s.h ∧ t.buf = s.buf ∧ t.count = s.count ∧ t.cause ≠ .none ∧
    t.responses = s.responses ++ [.fault t.cause]

/-- R208: in FAULT every command responds FAULT(CAUSE) and changes nothing, and only hardware reset leaves it. -/
def Obligations.FaultIsTerminalUntilReset : Prop :=
  (∀ (s : State) (op : Byte) (p : Bytes) (rest : List HostAction), s.phase = .fault →
    s.pending = .command op p :: rest →
    step s = .next { s with pending := rest, responses := s.responses ++ [.fault s.cause] }) ∧
  ∀ s t : State, s.phase = .fault → step s = .next t → t.phase ≠ .fault →
    ∃ rest, s.pending = .hardwareReset :: rest ∨ ∃ op p, s.pending = .commandCutByReset op p :: rest

/-- R209: CAUSE is NONE after reset; until hardware reset, a step that does not enter FAULT (a successful
command, a read of STATUS, no action) does not change it, and in FAULT no step does. -/
def Obligations.CauseStaysUntilReset : Prop :=
  State.reset.cause = .none ∧ (∀ s : State, (hardReset s).cause = .none) ∧
  ∀ s t : State, step s = .next t → (∀ rest, s.pending ≠ .hardwareReset :: rest) →
    (∀ op p rest, s.pending ≠ .commandCutByReset op p :: rest) →
    (t.phase ≠ .fault → t.cause = s.cause) ∧ (s.phase = .fault → t.cause = s.cause ∧ t.phase = .fault)

/-- R207 for BLOCK_LENGTH, as the model's operation, since no command reaches it: CAUSE, PHASE and the response,
and nothing of the host's changes. H, BUF and COUNT are free values and have no clause (log entry 7). -/
def Obligations.BlockLengthFaultEntry : Prop :=
  ∀ s : State,
    (raiseBlockLength s).phase = .fault ∧ (raiseBlockLength s).cause = .blockLength ∧
    (raiseBlockLength s).responses = s.responses ++ [.fault .blockLength] ∧
    (raiseBlockLength s).countOverflow = s.countOverflow ∧ (raiseBlockLength s).pending = s.pending ∧
    (raiseBlockLength s).statusReads = s.statusReads

/-- R77: every command gives exactly one response: OK on a successful INIT or UPDATE, DIGEST with the 20 bytes
of R54 on a successful FINALIZE, FAULT with the cause on every other; each as its tag and its data. -/
def Obligations.OneResponsePerCommand : Prop :=
  ∀ (s : State) (op : Byte) (p : Bytes) (rest : List HostAction), s.pending = .command op p :: rest →
    ∃ t r, step s = .next t ∧ t.responses = s.responses ++ [r] ∧
      ((r = .ok ∧ (op = 0x01 ∨ op = 0x02) ∧ t.phase = .absorb ∧ responseBytes r = [0x00]) ∨
       (r = .digest (digestBytes t.h) ∧ op = 0x03 ∧ t.phase = .spent ∧ (digestBytes t.h).length = 20 ∧
          responseBytes r = 0x01 :: digestBytes t.h) ∨
       (r = .fault t.cause ∧ t.phase = .fault ∧ responseBytes r = [0x02, (causeCode t.cause).setWidth 8]))

/-- R21: H changes only by INIT, by an UPDATE or FINALIZE that compresses, or by hardware reset (whose value of
H the model chose, log entry 1). -/
def Obligations.ChainChangesOnlyByCompression : Prop :=
  ∀ s t : State, step s = .next t → t.h ≠ s.h →
    ∃ rest, s.pending = .command 0x01 [] :: rest ∨
      (s.phase = .absorb ∧ ∃ p, s.pending = .command 0x02 p :: rest ∧ 64 ≤ haveOf s.count + p.length) ∨
      (s.phase = .absorb ∧ s.pending = .command 0x03 [] :: rest) ∨
      s.pending = .hardwareReset :: rest ∨ ∃ op p, s.pending = .commandCutByReset op p :: rest

/-! ### The whole machine -/

/-- The invariant holds right after reset. Its clause on COUNT rests on the model's choice of COUNT's reset value,
DESIGN CHOICE 0 (log entry 1): the spec leaves it unspecified (R36). -/
def Obligations.InvariantHoldsAtReset : Prop :=
  Inv State.reset

/-- The invariant is kept by every step, from every state that meets it: CAUSE is NONE exactly outside FAULT
(R209), BLOCK_LENGTH is never raised (R205), COUNT counts whole bytes (R23), a spent context ends on a block
boundary (R115), every digest given has 20 bytes (R77). For a step that applies hardware reset the clause on
COUNT rests on the model's choice, DESIGN CHOICE 0 (log entries 1 and 2). -/
def Obligations.EveryStepKeepsTheInvariant : Prop :=
  ∀ s t : State, Inv s → step s = .next t → Inv t

/-- R23, R24, R108: the context of a message. INIT makes that of the empty message, UPDATE appends its payload
to the message, and FINALIZE responds with the message's digest. -/
def Obligations.ContextFollowsTheMessage : Prop :=
  (∀ s : State, s.phase ≠ .fault →
    ∃ t, exec (.init []) s = .next t ∧ Holds [] t ∧ t.phase = .absorb) ∧
  (∀ (m p : Bytes) (s : State), Holds m s → s.phase = .absorb →
    ¬(s.countOverflow = .fault ∧ 2 ^ 64 ≤ s.count.toNat + 8 * p.length) →
    ∃ t, exec (.update p) s = .next t ∧ Holds (m ++ p) t ∧ t.phase = .absorb) ∧
  ∀ (m : Bytes) (s : State), Holds m s → s.phase = .absorb →
    ¬(s.countOverflow = .fault ∧ 2 ^ 64 ≤ s.count.toNat + 8 * padLen (haveOf s.count)) →
    ∃ t, exec (.finalize []) s = .next t ∧ t.phase = .spent ∧
      t.responses = s.responses ++ [.digest (ripemd160 m)]

/-- R24, R35, R36, R22: no response and no read of STATUS depends on the stale bytes of BUF, nor, outside ABSORB,
on H or COUNT: a step from two states the host cannot tell apart gives two states it cannot tell apart. -/
def Obligations.UnspecifiedStateIsNeverObserved : Prop :=
  ∀ s t : State, Indistinguishable s t →
    ∃ s' t', step s = .next s' ∧ step t = .next t' ∧ Indistinguishable s' t'

/-- R239, R241, R19: from every clean entry, under Wrap, the host's commands INIT, UPDATE for each piece of a
message, FINALIZE all succeed, and the last response is the message's digest, however the message is split. -/
def Obligations.MessageScriptGivesTheDigest : Prop :=
  ∀ (s : State) (pieces : List Bytes) (rest : List HostAction),
    CleanEntry s → s.countOverflow = .wrap → s.pending = messageScript pieces ++ rest →
    ∃ t : State, Host.Core.run Sys2Proof.core (pieces.length + 2) s = .next t ∧
      t.responses = s.responses
        ++ (List.replicate (pieces.length + 1) .ok ++ [.digest (ripemd160 pieces.flatten)]) ∧
      t.phase = .spent ∧ t.cause = s.cause ∧ t.pending = rest ∧ Succeeded t

/-- R116: the pseudo-command HASH, as the commands it expands to, from every phase: under Wrap it responds with
the digest of its operand unless the engine is in FAULT, and there each of its three commands responds
FAULT(CAUSE). -/
def Obligations.HashRespondsTheDigest : Prop :=
  ∀ (s : State) (m : Bytes) (rest : List HostAction),
    s.countOverflow = .wrap → s.pending = issueAll (hashCommands m) ++ rest →
    (s.phase ≠ .fault →
      ∃ t : State, Host.Core.run Sys2Proof.core 3 s = .next t ∧
        t.responses = s.responses ++ [.ok, .ok, .digest (ripemd160 m)] ∧ t.phase = .spent) ∧
    (s.phase = .fault →
      Host.Core.run Sys2Proof.core 3 s = .next
        { s with pending := rest, responses := s.responses ++ List.replicate 3 (.fault s.cause) })
end

