-- ==== Sys2Proof/Laws/Buffer.lean ====
section
/-!
SUPPORT. What the accesses to BUF do: a write changes the bytes it names and no other, a read after a write
gives what was written, and both answer exactly inside offsets 0..63 (00_scope.md R11, 20_memory.md R51).
-/

namespace Sys2Proof.Machine

/-- One byte of BUF after a write: the written byte inside the written span, the old byte outside. -/
theorem getElem_bufPut (buf : Buffer) (off : Nat) (p : Bytes) (i : Nat) (hi : i < 64) :
    (bufPut buf off p)[i] =
      if h : off ≤ i ∧ i < off + p.length then p[i - off] else buf[i] := by
  induction p generalizing buf off with
  | nil => simp [bufPut]
  | cons b p ih =>
    rw [bufPut, ih]
    by_cases h1 : off + 1 ≤ i ∧ i < off + 1 + p.length
    · have h2 : off ≤ i ∧ i < off + (b :: p).length := by simp; omega
      rw [dif_pos h1, dif_pos h2]
      have : i - off = (i - (off + 1)) + 1 := by omega
      simp [this]
    · rw [dif_neg h1, Vector.getElem_setIfInBounds]
      by_cases h3 : off = i
      · subst h3; simp
      · have h2 : ¬(off ≤ i ∧ i < off + (b :: p).length) := by simp; omega
        rw [dif_neg h2, if_neg h3]

/-- `MemWrite` answers exactly inside BUF. -/
theorem memWrite_eq_some {buf : Buffer} {off : Nat} {p : Bytes} (h : off + p.length ≤ 64) :
    memWrite buf off p = some (bufPut buf off p) := by
  simp [memWrite, h]

/-- `MemWrite` outside BUF is the violation BLOCK_LENGTH. -/
theorem memWrite_eq_none {buf : Buffer} {off : Nat} {p : Bytes} (h : ¬off + p.length ≤ 64) :
    memWrite buf off p = none := by
  simp [memWrite, h]

/-- `MemRead` answers exactly inside BUF. -/
theorem memRead_eq_some {buf : Buffer} {off n : Nat} (h : off + n ≤ 64) :
    memRead buf off n = some ((buf.toList.drop off).take n) := by
  simp [memRead, h]

/-- Reading all of BUF. -/
theorem memRead_all (buf : Buffer) : memRead buf 0 64 = some buf.toList := by
  rw [memRead_eq_some (by omega), List.drop_zero, List.take_of_length_le (by simp)]

/-- The first bytes of BUF after an append behind `off` valid bytes (40_context_commands.md R105). -/
theorem take_bufPut (buf : Buffer) (off : Nat) (p : Bytes) (h : off + p.length ≤ 64) :
    (bufPut buf off p).toList.take (off + p.length) = buf.toList.take off ++ p := by
  apply List.ext_getElem
  · simp; omega
  · intro i h1 h2
    have hi : i < off + p.length := by simp at h1; omega
    rw [List.getElem_take, Vector.getElem_toList, getElem_bufPut, List.getElem_append]
    by_cases hlt : i < off
    · have : ¬(off ≤ i ∧ i < off + p.length) := by omega
      have hl : i < (buf.toList.take off).length := by simp; omega
      rw [dif_neg this, dif_pos hl, List.getElem_take, Vector.getElem_toList]
    · have : off ≤ i ∧ i < off + p.length := by omega
      have hl : ¬i < (buf.toList.take off).length := by simp; omega
      have e : (buf.toList.take off).length = off := by simp; omega
      rw [dif_pos this, dif_neg hl]
      simp only [e]

/-- BUF after it is filled behind `off` valid bytes (R106): those bytes, then the written ones. -/
theorem toList_bufPut_full (buf : Buffer) (off : Nat) (p : Bytes) (h : off + p.length = 64) :
    (bufPut buf off p).toList = buf.toList.take off ++ p := by
  rw [← take_bufPut buf off p (by omega), h, List.take_of_length_le (by simp)]

end Sys2Proof.Machine
end

