-- ==== Sys2Proof/Laws/Compress.lean ====
section
/-!
SUPPORT. COMPRESS answers exactly on 64 bytes (41_compression.md R141), and the strides of Absorb are the
compressions of the blocks in order (40_context_commands.md R107, 20_memory.md R62).
-/

namespace Sys2Proof.Machine

open Sys2Proof.Safety

theorem compress_eq_some {h : Chain} {blk : Bytes} (hl : blk.length = 64) :
    compress h blk = some (compressSchedule h (schedule blk)) := by
  simp [compress, hl]

theorem compress_eq_none {h : Chain} {blk : Bytes} (hl : blk.length ≠ 64) :
    compress h blk = none := by
  simp [compress, hl]

/-- The strides, where 64 bytes remain for each: `n` blocks in order. -/
theorem strides_eq (n : Nat) (h : Chain) (p : Bytes) (hn : 64 * n ≤ p.length) :
    strides h p n = some (chainOver n h p) := by
  induction n generalizing h p with
  | zero => rfl
  | succ n ih =>
    rw [strides, compress_eq_some (by simp; omega), Option.bind_some, ih _ _ (by simp; omega), chainOver]

/-- Blocks compressed in two goes. -/
theorem chainOver_add (m n : Nat) (h : Chain) (p : Bytes) :
    chainOver (m + n) h p = chainOver n (chainOver m h p) (p.drop (64 * m)) := by
  induction m generalizing h p with
  | zero => simp [chainOver]
  | succ m ih =>
    have e : m + 1 + n = (m + n) + 1 := by omega
    rw [e, chainOver, ih, chainOver, List.drop_drop]
    have : 64 + 64 * m = 64 * (m + 1) := by omega
    rw [this]

/-- Only the bytes of its blocks matter. -/
theorem chainOver_append (n : Nat) (h : Chain) (p q : Bytes) (hn : 64 * n ≤ p.length) :
    chainOver n h (p ++ q) = chainOver n h p := by
  induction n generalizing h p with
  | zero => rfl
  | succ n ih =>
    rw [chainOver, chainOver, List.take_append_of_le_length (by omega),
      List.drop_append_of_le_length (by omega), ih _ _ (by simp; omega)]

end Sys2Proof.Machine
end

