-- ==== Sys2Proof/Laws/Count.lean ====
section
/-!
SUPPORT. COUNT and what is computed from it: `have` is below 64 (00_scope.md R14), it stays right when the
counter advances, also past 2^64 (40_context_commands.md R104), and `padlen` ends a block (R111).
-/

namespace Sys2Proof.Machine

theorem haveOf_lt (c : Count) : haveOf c < 64 :=
  Nat.mod_lt _ (by decide)

theorem toNat_advance (c : Count) (n : Nat) :
    (advance c n).toNat = (c.toNat + 8 * n) % 2 ^ 64 := by
  simp [advance, BitVec.toNat_add]

/-- `have` after the counter advances by `n` bytes (R103, R104). -/
theorem haveOf_advance (c : Count) (n : Nat) :
    haveOf (advance c n) = (haveOf c + n) % 64 := by
  simp only [haveOf, toNat_advance]
  omega

/-- Two advances are one (R109). -/
theorem advance_advance (c : Count) (m n : Nat) :
    advance (advance c m) n = advance c (m + n) := by
  apply BitVec.eq_of_toNat_eq
  simp only [toNat_advance]
  omega

theorem advance_zero (c : Count) : advance c 0 = c := by
  simp [advance]

/-- COUNT stays a multiple of 8 (10_state.md R23). -/
theorem advance_whole_bytes {c : Count} (n : Nat) (h : c.toNat % 8 = 0) :
    (advance c n).toNat % 8 = 0 := by
  rw [toNat_advance]
  omega

/-- `have` for a message of `n` bytes, whose COUNT is 8 n modulo 2^64. -/
theorem haveOf_ofNat (n : Nat) : haveOf (BitVec.ofNat 64 (8 * n)) = n % 64 := by
  simp only [haveOf, BitVec.toNat_ofNat]
  omega

/-- The test of COUNT_OVERFLOW, as a proposition (60_exceptions.md R204). -/
theorem overflows_iff (s : State) (n : Nat) :
    overflows s n = true ↔ s.countOverflow = .fault ∧ 2 ^ 64 ≤ s.count.toNat + 8 * n := by
  simp [overflows, and_comm]

theorem padLen_eq (used : Nat) (h : used < 64) :
    padLen used = if used ≤ 55 then 64 - used else 128 - used := by
  unfold padLen
  split <;> split <;> omega

theorem padLen_bounds (used : Nat) (h : used < 64) : 9 ≤ padLen used ∧ padLen used ≤ 72 := by
  rw [padLen_eq used h]
  split <;> omega

theorem length_padBytes (padlen : Nat) (h : 9 ≤ padlen) : (padBytes padlen).length = padlen - 8 := by
  simp [padBytes]
  omega

@[simp] theorem length_le64Bytes (v : Count) : (le64Bytes v).length = 8 := by
  simp [le64Bytes]

@[simp] theorem length_le32Bytes (w : Word) : (le32Bytes w).length = 4 := by
  simp [le32Bytes]

@[simp] theorem length_digestBytes (h : Chain) : (digestBytes h).length = 20 := by
  simp [digestBytes]

end Sys2Proof.Machine
end

