-- ==== Sys2Proof/Laws/Absorb.lean ====
section
/-!
SUPPORT. Everything Absorb can do (40_context_commands.md R102 to R109), in one equation: COUNT advances by the
payload, the complete blocks are compressed in order, BUF is written as `bufAfter` says, nothing else changes.
It never meets BLOCK_LENGTH (R141).
-/

namespace Sys2Proof.Machine

open Sys2Proof.Safety

theorem length_validPrefix (s : State) : (validPrefix s).length = haveOf s.count := by
  have := haveOf_lt s.count
  simp [validPrefix]
  omega

/-- BUF after a payload is absorbed behind `used` valid bytes: on the short path (R105) the payload is appended;
otherwise BUF is filled (R106) and the tail goes to offset 0 over what the fill left (R108). -/
def bufAfter (buf : Buffer) (used : Nat) (p : Bytes) : Buffer :=
  if p.length < 64 - used then bufPut buf used p
  else bufPut (bufPut buf used (p.take (64 - used))) 0 (p.drop (64 * ((used + p.length) / 64) - used))

/-- One byte of BUF after the short path. -/
theorem getElem_bufAfter_short (buf : Buffer) (used : Nat) (p : Bytes) (h : p.length < 64 - used)
    (i : Nat) (hi : i < 64) :
    (bufAfter buf used p)[i] =
      if used ≤ i ∧ i < used + p.length then p.getD (i - used) 0 else buf[i] := by
  simp only [bufAfter, if_pos h, getElem_bufPut]
  split
  · rw [List.getD_eq_getElem]
  · rfl

/-- One byte of BUF after the other path: the tail of the payload, then the payload's first bytes where the
fill wrote them, then the old byte. -/
theorem getElem_bufAfter_fill (buf : Buffer) (used : Nat) (p : Bytes) (hu : used < 64)
    (h : 64 - used ≤ p.length) (i : Nat) (hi : i < 64) :
    (bufAfter buf used p)[i] =
      if i < (used + p.length) % 64 then p.getD (p.length - (used + p.length) % 64 + i) 0
      else if used ≤ i then p.getD (i - used) 0 else buf[i] := by
  have hs : ¬p.length < 64 - used := by omega
  have hd : p.length - (64 * ((used + p.length) / 64) - used) = (used + p.length) % 64 := by omega
  have ht : min (64 - used) p.length = 64 - used := by omega
  simp only [bufAfter, if_neg hs, getElem_bufPut, List.length_drop, List.length_take, hd, ht, Nat.zero_le,
    Nat.zero_add, true_and, Nat.sub_zero, List.getElem_drop, List.getElem_take]
  split
  · rw [List.getD_eq_getElem _ _ (by omega)]
    congr 1
    omega
  · by_cases hi' : used ≤ i
    · rw [dif_pos (by omega), if_pos hi', List.getD_eq_getElem _ _ (by omega)]
    · rw [dif_neg (by omega), if_neg hi']

/-- The new valid prefix of BUF (R108): what remains of the old one and the payload after the complete blocks. -/
theorem take_bufAfter (buf : Buffer) (used : Nat) (p : Bytes) (hu : used < 64) :
    (bufAfter buf used p).toList.take ((used + p.length) % 64)
      = (buf.toList.take used ++ p).drop (64 * ((used + p.length) / 64)) := by
  have hl : (buf.toList.take used).length = used := by
    simp
    omega
  unfold bufAfter
  split
  · rw [Nat.mod_eq_of_lt (by omega), Nat.div_eq_of_lt (by omega), Nat.mul_zero, List.drop_zero,
      take_bufPut _ _ _ (by omega)]
  · have e : (used + p.length) % 64 = 0 + (p.drop (64 * ((used + p.length) / 64) - used)).length := by
      simp
      omega
    have hnil : (buf.toList.take used).drop (64 * ((used + p.length) / 64)) = [] :=
      List.drop_eq_nil_of_le (by omega)
    rw [e, take_bufPut _ _ _ (by simp; omega), List.take_zero, List.nil_append, List.drop_append, hnil,
      List.nil_append, hl]

/-- What Absorb does (R102 to R109). -/
theorem absorb_eq (p : Bytes) (s : State) :
    absorb p s = some
      { s with
        count := advance s.count p.length
        h := chainOver ((haveOf s.count + p.length) / 64) s.h (validPrefix s ++ p)
        buf := bufAfter s.buf (haveOf s.count) p } := by
  have hlt := haveOf_lt s.count
  by_cases h : p.length < 64 - haveOf s.count
  · unfold absorb
    simp only [bufAfter, if_pos h]
    rw [memWrite_eq_some (by omega), Nat.div_eq_of_lt (by omega)]
    rfl
  · have hfull : (bufPut s.buf (haveOf s.count) (p.take (64 - haveOf s.count))).toList
        = validPrefix s ++ p.take (64 - haveOf s.count) := by
      rw [toList_bufPut_full _ _ _ (by simp; omega)]
      rfl
    have hn : (haveOf s.count + p.length) / 64 = (p.drop (64 - haveOf s.count)).length / 64 + 1 := by
      simp
      omega
    have hsplit : validPrefix s ++ p
        = (validPrefix s ++ p.take (64 - haveOf s.count)) ++ p.drop (64 - haveOf s.count) := by
      rw [List.append_assoc, List.take_append_drop]
    have hlen : (validPrefix s ++ p.take (64 - haveOf s.count)).length = 64 := by
      simp [length_validPrefix]
      omega
    have htail : (p.drop (64 - haveOf s.count)).drop (64 * ((p.drop (64 - haveOf s.count)).length / 64))
        = p.drop (64 * ((haveOf s.count + p.length) / 64) - haveOf s.count) := by
      rw [List.drop_drop, hn]
      congr 1
      omega
    unfold absorb absorbFill
    simp only [bufAfter, if_neg h]
    rw [memWrite_eq_some (by simp; omega), Option.bind_some, memRead_all, Option.bind_some, hfull,
      compress_eq_some hlen, Option.bind_some, strides_eq _ _ _ (by omega), Option.bind_some, htail,
      memWrite_eq_some (by simp; omega)]
    simp only [Option.map_some]
    rw [hn, chainOver, hsplit, List.take_left' hlen, List.drop_left' hlen]

/-- BUF after FINALIZE's two calls of Absorb: the pad behind `used` valid bytes leaves 56 of them, and the 8
length bytes complete the block (R112, R113). -/
def bufPadded (buf : Buffer) (used : Nat) (lengthField : Bytes) : Buffer :=
  bufAfter (bufAfter buf used (padBytes (padLen used))) 56 lengthField

/-- What FINALIZE's two calls of Absorb do (R110 to R113): the valid bytes and the padding end on a block
boundary, and every block of them is compressed. -/
theorem absorbPadding_eq (s : State) :
    absorbPadding s = some
      { s with
        count := advance s.count (padLen (haveOf s.count))
        h := chainOver ((haveOf s.count + padLen (haveOf s.count)) / 64) s.h
          (validPrefix s ++ (padBytes (padLen (haveOf s.count)) ++ le64Bytes s.count))
        buf := bufPadded s.buf (haveOf s.count) (le64Bytes s.count) } := by
  have hlt := haveOf_lt s.count
  have hb := padLen_bounds _ hlt
  have hpe := padLen_eq _ hlt
  have hpl := length_padBytes _ hb.1
  have hv := length_validPrefix s
  have h56 : (haveOf s.count + (padLen (haveOf s.count) - 8)) % 64 = 56 := by
    split at hpe <;> omega
  have hcount : padLen (haveOf s.count) - 8 + 8 = padLen (haveOf s.count) := by omega
  have hn : (haveOf s.count + padLen (haveOf s.count)) / 64
      = (haveOf s.count + (padLen (haveOf s.count) - 8)) / 64 + 1 := by omega
  have hle : 64 * ((haveOf s.count + (padLen (haveOf s.count) - 8)) / 64)
      ≤ (validPrefix s ++ padBytes (padLen (haveOf s.count))).length := by
    rw [List.length_append, hv, hpl]
    omega
  have hpre := take_bufAfter s.buf (haveOf s.count) (padBytes (padLen (haveOf s.count))) hlt
  rw [hpl, h56] at hpre
  unfold absorbPadding
  rw [absorb_eq, Option.bind_some, absorb_eq]
  rw [validPrefix] at hle
  simp only [haveOf_advance, length_le64Bytes, advance_advance, hpl, h56, hcount, validPrefix, bufPadded, hpre]
  rw [hn, ← List.append_assoc, chainOver_add, chainOver_append _ _ _ _ hle,
    List.drop_append_of_le_length hle]

end Sys2Proof.Machine
end

