-- ==== Sys2Proof/Laws/State.lean ====
section
/-!
SUPPORT. One lemma per field for each update of the state: no proof unfolds a record update.
-/

namespace Sys2Proof.Machine

@[simp] theorem respond_h (r : Response) (s : State) : (respond r s).h = s.h := rfl
@[simp] theorem respond_buf (r : Response) (s : State) : (respond r s).buf = s.buf := rfl
@[simp] theorem respond_count (r : Response) (s : State) : (respond r s).count = s.count := rfl
@[simp] theorem respond_phase (r : Response) (s : State) : (respond r s).phase = s.phase := rfl
@[simp] theorem respond_cause (r : Response) (s : State) : (respond r s).cause = s.cause := rfl
@[simp] theorem respond_countOverflow (r : Response) (s : State) : (respond r s).countOverflow = s.countOverflow := rfl
@[simp] theorem respond_pending (r : Response) (s : State) : (respond r s).pending = s.pending := rfl
@[simp] theorem respond_responses (r : Response) (s : State) : (respond r s).responses = s.responses ++ [r] := rfl
@[simp] theorem respond_statusReads (r : Response) (s : State) : (respond r s).statusReads = s.statusReads := rfl
@[simp] theorem respond_fresh (r : Response) (s : State) : (respond r s).fresh = s.fresh := rfl

@[simp] theorem raise_h (c : Cause) (s : State) : (raise c s).h = s.h := rfl
@[simp] theorem raise_buf (c : Cause) (s : State) : (raise c s).buf = s.buf := rfl
@[simp] theorem raise_count (c : Cause) (s : State) : (raise c s).count = s.count := rfl
@[simp] theorem raise_phase (c : Cause) (s : State) : (raise c s).phase = .fault := rfl
@[simp] theorem raise_cause (c : Cause) (s : State) : (raise c s).cause = c := rfl
@[simp] theorem raise_countOverflow (c : Cause) (s : State) : (raise c s).countOverflow = s.countOverflow := rfl
@[simp] theorem raise_pending (c : Cause) (s : State) : (raise c s).pending = s.pending := rfl
@[simp] theorem raise_responses (c : Cause) (s : State) : (raise c s).responses = s.responses ++ [.fault c] := rfl
@[simp] theorem raise_statusReads (c : Cause) (s : State) : (raise c s).statusReads = s.statusReads := rfl
@[simp] theorem raise_fresh (c : Cause) (s : State) : (raise c s).fresh = s.fresh := rfl

@[simp] theorem respondFault_h (s : State) : (respondFault s).h = s.h := rfl
@[simp] theorem respondFault_buf (s : State) : (respondFault s).buf = s.buf := rfl
@[simp] theorem respondFault_count (s : State) : (respondFault s).count = s.count := rfl
@[simp] theorem respondFault_phase (s : State) : (respondFault s).phase = s.phase := rfl
@[simp] theorem respondFault_cause (s : State) : (respondFault s).cause = s.cause := rfl
@[simp] theorem respondFault_countOverflow (s : State) : (respondFault s).countOverflow = s.countOverflow := rfl
@[simp] theorem respondFault_pending (s : State) : (respondFault s).pending = s.pending := rfl
@[simp] theorem respondFault_responses (s : State) : (respondFault s).responses = s.responses ++ [.fault s.cause] := rfl
@[simp] theorem respondFault_statusReads (s : State) : (respondFault s).statusReads = s.statusReads := rfl
@[simp] theorem respondFault_fresh (s : State) : (respondFault s).fresh = s.fresh := rfl

@[simp] theorem afterAction_h (s : State) (rest : List HostAction) : (s.afterAction rest).h = s.h := rfl
@[simp] theorem afterAction_buf (s : State) (rest : List HostAction) : (s.afterAction rest).buf = s.buf := rfl
@[simp] theorem afterAction_count (s : State) (rest : List HostAction) : (s.afterAction rest).count = s.count := rfl
@[simp] theorem afterAction_phase (s : State) (rest : List HostAction) : (s.afterAction rest).phase = s.phase := rfl
@[simp] theorem afterAction_cause (s : State) (rest : List HostAction) : (s.afterAction rest).cause = s.cause := rfl
@[simp] theorem afterAction_countOverflow (s : State) (rest : List HostAction) : (s.afterAction rest).countOverflow = s.countOverflow := rfl
@[simp] theorem afterAction_pending (s : State) (rest : List HostAction) : (s.afterAction rest).pending = rest := rfl
@[simp] theorem afterAction_responses (s : State) (rest : List HostAction) : (s.afterAction rest).responses = s.responses := rfl
@[simp] theorem afterAction_statusReads (s : State) (rest : List HostAction) : (s.afterAction rest).statusReads = s.statusReads := rfl
@[simp] theorem afterAction_fresh (s : State) (rest : List HostAction) : (s.afterAction rest).fresh = s.fresh := rfl

@[simp] theorem hardReset_h (s : State) : (hardReset s).h = State.reset.h := rfl
@[simp] theorem hardReset_buf (s : State) : (hardReset s).buf = State.reset.buf := rfl
@[simp] theorem hardReset_count (s : State) : (hardReset s).count = State.reset.count := rfl
@[simp] theorem hardReset_phase (s : State) : (hardReset s).phase = .idle := rfl
@[simp] theorem hardReset_cause (s : State) : (hardReset s).cause = .none := rfl
@[simp] theorem hardReset_countOverflow (s : State) : (hardReset s).countOverflow = s.countOverflow := rfl
@[simp] theorem hardReset_pending (s : State) : (hardReset s).pending = s.pending := rfl
@[simp] theorem hardReset_responses (s : State) : (hardReset s).responses = s.responses := rfl
@[simp] theorem hardReset_statusReads (s : State) : (hardReset s).statusReads = s.statusReads := rfl
@[simp] theorem hardReset_fresh (s : State) : (hardReset s).fresh = s.fresh := rfl

@[simp] theorem readStatus_h (s : State) : (readStatus s).h = s.h := rfl
@[simp] theorem readStatus_buf (s : State) : (readStatus s).buf = s.buf := rfl
@[simp] theorem readStatus_count (s : State) : (readStatus s).count = s.count := rfl
@[simp] theorem readStatus_phase (s : State) : (readStatus s).phase = s.phase := rfl
@[simp] theorem readStatus_cause (s : State) : (readStatus s).cause = s.cause := rfl
@[simp] theorem readStatus_countOverflow (s : State) : (readStatus s).countOverflow = s.countOverflow := rfl
@[simp] theorem readStatus_pending (s : State) : (readStatus s).pending = s.pending := rfl
@[simp] theorem readStatus_responses (s : State) : (readStatus s).responses = s.responses := rfl
@[simp] theorem readStatus_statusReads (s : State) : (readStatus s).statusReads = s.statusReads ++ [status s] := rfl
@[simp] theorem readStatus_fresh (s : State) : (readStatus s).fresh = s.fresh := rfl

@[simp] theorem raiseBlockLength_h (s : State) : (raiseBlockLength s).h = freeChain s.fresh := rfl
@[simp] theorem raiseBlockLength_buf (s : State) : (raiseBlockLength s).buf = Vector.ofFn (Config.freeBufByte s.fresh) := rfl
@[simp] theorem raiseBlockLength_count (s : State) : (raiseBlockLength s).count = Config.freeCount s.fresh := rfl
@[simp] theorem raiseBlockLength_phase (s : State) : (raiseBlockLength s).phase = .fault := rfl
@[simp] theorem raiseBlockLength_cause (s : State) : (raiseBlockLength s).cause = .blockLength := rfl
@[simp] theorem raiseBlockLength_countOverflow (s : State) : (raiseBlockLength s).countOverflow = s.countOverflow := rfl
@[simp] theorem raiseBlockLength_pending (s : State) : (raiseBlockLength s).pending = s.pending := rfl
@[simp] theorem raiseBlockLength_responses (s : State) : (raiseBlockLength s).responses = s.responses ++ [.fault .blockLength] := rfl
@[simp] theorem raiseBlockLength_statusReads (s : State) : (raiseBlockLength s).statusReads = s.statusReads := rfl
@[simp] theorem raiseBlockLength_fresh (s : State) : (raiseBlockLength s).fresh = s.fresh + 1 := rfl

end Sys2Proof.Machine
end

