-- ==== Sys2Proof/Laws/Exec.lean ====
section
/-!
SUPPORT. Everything a command and a step can do, one inversion lemma each: the cases are the checks of the
dispatch in their order (40_context_commands.md R100, 60_exceptions.md R206), with their guards.
-/

namespace Sys2Proof.Machine

open Sys2Proof.Safety

/-- The state after a successful INIT (R101), before its response. -/
def initialised (s : State) : State :=
  { s with h := iv, count := 0, phase := .absorb }

/-- The state after a successful UPDATE (R102), before its response. -/
def updated (p : Bytes) (s : State) : State :=
  { s with
    count := advance s.count p.length
    h := chainOver ((haveOf s.count + p.length) / 64) s.h (validPrefix s ++ p)
    buf := bufAfter s.buf (haveOf s.count) p }

/-- The state after a successful FINALIZE (R110 to R115), before its response. -/
def finalized (s : State) : State :=
  { s with
    count := advance s.count (padLen (haveOf s.count))
    h := chainOver ((haveOf s.count + padLen (haveOf s.count)) / 64) s.h
      (validPrefix s ++ (padBytes (padLen (haveOf s.count)) ++ le64Bytes s.count))
    buf := bufPadded s.buf (haveOf s.count) (le64Bytes s.count)
    phase := .spent }

/-- The context after an UPDATE: its `have` and its valid prefix (R108). -/
theorem validPrefix_updated (p : Bytes) (s : State) :
    validPrefix (updated p s)
      = (validPrefix s ++ p).drop (64 * ((haveOf s.count + p.length) / 64)) := by
  simp only [validPrefix, updated, haveOf_advance]
  exact take_bufAfter _ _ _ (haveOf_lt _)

/-- After a FINALIZE no byte of BUF is valid (R115). -/
theorem haveOf_finalized (s : State) : haveOf (finalized s).count = 0 := by
  have hlt := haveOf_lt s.count
  simp only [finalized, haveOf_advance]
  rw [padLen_eq _ hlt]
  split <;> omega

theorem execInit_ok {s : State} (h : s.phase ≠ .fault) :
    execInit [] s = .next (respond .ok (initialised s)) := by
  simp [execInit, h, initialised]

theorem execUpdate_ok {p : Bytes} {s : State} (h : s.phase = .absorb)
    (ho : ¬(s.countOverflow = .fault ∧ 2 ^ 64 ≤ s.count.toNat + 8 * p.length)) :
    execUpdate p s = .next (respond .ok (updated p s)) := by
  rw [← overflows_iff] at ho
  simp [execUpdate, h, ho, absorb_eq, updated]

theorem execFinalize_ok {s : State} (h : s.phase = .absorb)
    (ho : ¬(s.countOverflow = .fault ∧ 2 ^ 64 ≤ s.count.toNat + 8 * padLen (haveOf s.count))) :
    execFinalize [] s = .next (respond (.digest (digestBytes (finalized s).h)) (finalized s)) := by
  rw [← overflows_iff] at ho
  simp [execFinalize, h, ho, absorbPadding_eq, finalized]

/-- Everything INIT can do. -/
theorem execInit_cases {p : Bytes} {s t : State} (h : execInit p s = .next t) :
    (s.phase = .fault ∧ t = respondFault s) ∨
    (s.phase ≠ .fault ∧ p ≠ [] ∧ t = raise .illegalCommand s) ∨
    (s.phase ≠ .fault ∧ p = [] ∧ t = respond .ok (initialised s)) := by
  have h := (Host.Outcome.next.inj h).symm
  split at h
  · exact .inl ⟨‹_›, h⟩
  · split at h
    · exact .inr (.inl ⟨‹_›, ‹_›, h⟩)
    · exact .inr (.inr ⟨‹_›, not_not.mp ‹_›, h⟩)

/-- Everything UPDATE can do. -/
theorem execUpdate_cases {p : Bytes} {s t : State} (h : execUpdate p s = .next t) :
    (s.phase = .fault ∧ t = respondFault s) ∨
    (s.phase = .idle ∧ t = raise .notInitialised s) ∨
    (s.phase = .spent ∧ t = raise .spentContext s) ∨
    (s.phase = .absorb ∧ (s.countOverflow = .fault ∧ 2 ^ 64 ≤ s.count.toNat + 8 * p.length) ∧
      t = raise .countOverflow s) ∨
    (s.phase = .absorb ∧ ¬(s.countOverflow = .fault ∧ 2 ^ 64 ≤ s.count.toNat + 8 * p.length) ∧
      t = respond .ok (updated p s)) := by
  cases hp : s.phase
  · exact .inr (.inl ⟨rfl, by simpa [execUpdate, hp] using h.symm⟩)
  · by_cases ho : s.countOverflow = .fault ∧ 2 ^ 64 ≤ s.count.toNat + 8 * p.length
    · have := (overflows_iff s p.length).2 ho
      exact .inr (.inr (.inr (.inl ⟨rfl, ho, by simpa [execUpdate, hp, this] using h.symm⟩)))
    · exact .inr (.inr (.inr (.inr ⟨rfl, ho, Host.Outcome.next.inj (h.symm.trans (execUpdate_ok hp ho))⟩)))
  · exact .inr (.inr (.inl ⟨rfl, by simpa [execUpdate, hp] using h.symm⟩))
  · exact .inl ⟨rfl, by simpa [execUpdate, hp] using h.symm⟩

/-- Everything FINALIZE can do. -/
theorem execFinalize_cases {p : Bytes} {s t : State} (h : execFinalize p s = .next t) :
    (s.phase = .fault ∧ t = respondFault s) ∨
    (s.phase ≠ .fault ∧ p ≠ [] ∧ t = raise .illegalCommand s) ∨
    (s.phase = .idle ∧ p = [] ∧ t = raise .notInitialised s) ∨
    (s.phase = .spent ∧ p = [] ∧ t = raise .spentContext s) ∨
    (s.phase = .absorb ∧ p = [] ∧
      (s.countOverflow = .fault ∧ 2 ^ 64 ≤ s.count.toNat + 8 * padLen (haveOf s.count)) ∧
      t = raise .countOverflow s) ∨
    (s.phase = .absorb ∧ p = [] ∧
      ¬(s.countOverflow = .fault ∧ 2 ^ 64 ≤ s.count.toNat + 8 * padLen (haveOf s.count)) ∧
      t = respond (.digest (digestBytes (finalized s).h)) (finalized s)) := by
  by_cases hf : s.phase = .fault
  · exact .inl ⟨hf, by simpa [execFinalize, hf] using h.symm⟩
  by_cases hne : p = []
  · subst hne
    cases hp : s.phase
    · exact .inr (.inr (.inl ⟨rfl, rfl, by simpa [execFinalize, hp] using h.symm⟩))
    · by_cases ho : s.countOverflow = .fault ∧ 2 ^ 64 ≤ s.count.toNat + 8 * padLen (haveOf s.count)
      · have := (overflows_iff s (padLen (haveOf s.count))).2 ho
        exact .inr (.inr (.inr (.inr (.inl ⟨rfl, rfl, ho, by simpa [execFinalize, hp, this] using h.symm⟩))))
      · have e := execFinalize_ok hp ho
        exact .inr (.inr (.inr (.inr (.inr ⟨rfl, rfl, ho, Host.Outcome.next.inj (h.symm.trans e)⟩))))
    · exact .inr (.inr (.inr (.inl ⟨rfl, rfl, by simpa [execFinalize, hp] using h.symm⟩)))
    · exact absurd hp hf
  · exact .inr (.inl ⟨hf, hne, by simpa [execFinalize, hf, hne] using h.symm⟩)

/-- Every command answers a next state (R13). -/
theorem exec_next (i : Instr) (s : State) : ∃ t, exec i s = .next t := by
  cases i <;> exact ⟨_, rfl⟩

theorem decodeOp_init {op : Byte} : decodeOp op = .init ↔ op = 0x01 := by
  unfold decodeOp
  repeat' split
  all_goals simp_all

theorem decodeOp_update {op : Byte} : decodeOp op = .update ↔ op = 0x02 := by
  unfold decodeOp
  repeat' split
  all_goals simp_all

theorem decodeOp_finalize {op : Byte} : decodeOp op = .finalize ↔ op = 0x03 := by
  unfold decodeOp
  repeat' split
  all_goals simp_all

theorem decodeOp_reserved {op : Byte} :
    decodeOp op = .reserved ↔ op ≠ 0x01 ∧ op ≠ 0x02 ∧ op ≠ 0x03 := by
  unfold decodeOp
  repeat' split
  all_goals simp_all

/-- A step on a command is the meaning its opcode byte selects (R72, R73). -/
theorem step_command {s : State} {op : Byte} {p : Bytes} {rest : List HostAction}
    (h : s.pending = .command op p :: rest) :
    (op = 0x01 ∧ step s = execInit p (s.afterAction rest)) ∨
    (op = 0x02 ∧ step s = execUpdate p (s.afterAction rest)) ∨
    (op = 0x03 ∧ step s = execFinalize p (s.afterAction rest)) ∨
    ((op ≠ 0x01 ∧ op ≠ 0x02 ∧ op ≠ 0x03) ∧ step s = .next (reservedCommand (s.afterAction rest))) := by
  cases hd : decodeOp op
  · exact .inl ⟨decodeOp_init.1 hd, by simp only [step, h, decodeCommand, hd, exec]⟩
  · exact .inr (.inl ⟨decodeOp_update.1 hd, by simp only [step, h, decodeCommand, hd, exec]⟩)
  · exact .inr (.inr (.inl ⟨decodeOp_finalize.1 hd, by simp only [step, h, decodeCommand, hd, exec]⟩))
  · exact .inr (.inr (.inr ⟨decodeOp_reserved.1 hd, by simp only [step, h, decodeCommand, hd]⟩))

/-- A run whose first step answers goes on from there. -/
theorem run_succ {n : Nat} {s t : State} (h : step s = .next t) :
    Host.Core.run Sys2Proof.core (n + 1) s = Host.Core.run Sys2Proof.core n t := by
  have h' : Sys2Proof.core.step s = .next t := h
  simp only [Host.Core.run, h']

/-- What the host's next action is, and what the step then does. -/
theorem step_cases {s t : State} (h : step s = .next t) :
    (s.pending = [] ∧ t = s) ∨
    (∃ op p rest i, s.pending = .command op p :: rest ∧ decodeCommand op p = .instr i ∧
      exec i (s.afterAction rest) = .next t) ∨
    (∃ op p rest, s.pending = .command op p :: rest ∧ decodeOp op = .reserved ∧
      t = reservedCommand (s.afterAction rest)) ∨
    (∃ rest, s.pending = .readStatus :: rest ∧ t = readStatus (s.afterAction rest)) ∨
    (∃ rest, (s.pending = .hardwareReset :: rest ∨ ∃ op p, s.pending = .commandCutByReset op p :: rest) ∧
      t = hardReset (s.afterAction rest)) := by
  unfold step at h
  split at h
  · exact .inl ⟨‹_›, (Host.Outcome.next.inj h).symm⟩
  · rename_i op p rest hp
    cases hd : decodeOp op <;> simp only [decodeCommand, hd] at h
    · exact .inr (.inl ⟨op, p, rest, _, hp, by simp [decodeCommand, hd], h⟩)
    · exact .inr (.inl ⟨op, p, rest, _, hp, by simp [decodeCommand, hd], h⟩)
    · exact .inr (.inl ⟨op, p, rest, _, hp, by simp [decodeCommand, hd], h⟩)
    · exact .inr (.inr (.inl ⟨op, p, rest, hp, hd, (Host.Outcome.next.inj h).symm⟩))
  · exact .inr (.inr (.inr (.inl ⟨_, ‹_›, (Host.Outcome.next.inj h).symm⟩)))
  · exact .inr (.inr (.inr (.inr ⟨_, .inl ‹_›, (Host.Outcome.next.inj h).symm⟩)))
  · exact .inr (.inr (.inr (.inr ⟨_, .inr ⟨_, _, ‹_›⟩, (Host.Outcome.next.inj h).symm⟩)))

end Sys2Proof.Machine
end

