-- ==== Sys2Proof/Laws/Packing.lean ====
section
/-!
SUPPORT. The packing `le32` (00_scope.md R12) as the four bytes side by side, byte 0 lowest, and as a number.
-/

namespace Sys2Proof.Machine

theorem le32_eq_append (b0 b1 b2 b3 : Byte) :
    le32 b0 b1 b2 b3 = ((b3 ++ b2 ++ b1 ++ b0 : BitVec (8 + 8 + 8 + 8)) : Word) := by
  apply BitVec.eq_of_getLsbD_eq
  intro i hi
  have z (b : Byte) (j : Nat) (hj : 8 ≤ j) : b.getLsbD j = false := BitVec.getLsbD_of_ge b j hj
  simp only [le32, BitVec.getLsbD_or, BitVec.getLsbD_shiftLeft, BitVec.getLsbD_setWidth,
    BitVec.getLsbD_append]
  have cases : i < 8 ∨ (8 ≤ i ∧ i < 16) ∨ (16 ≤ i ∧ i < 24) ∨ 24 ≤ i := by omega
  rcases cases with h | ⟨h, h'⟩ | ⟨h, h'⟩ | h
  · simp [h, hi, show i < 16 by omega, show i < 24 by omega]
  · have e : i < 8 + 8 := by omega
    simp [hi, h', show ¬i < 8 by omega, show i < 24 by omega, show i - 8 < 8 by omega, z b0 i h,
      show i - 8 < 32 by omega]
  · simp [hi, h', show ¬i < 8 by omega, show ¬i < 16 by omega, show ¬i - 8 < 8 by omega,
      show i - 8 < 32 by omega, show i - 8 - 8 < 32 by omega, z b0 i (by omega), z b1 (i - 8) (by omega),
      show i - 16 = i - 8 - 8 by omega, show i - 8 - 8 < 8 by omega]
  · simp [hi, show ¬i < 8 by omega, show ¬i < 16 by omega, show ¬i < 24 by omega,
      show ¬i - 8 < 8 by omega, show ¬i - 8 - 8 < 8 by omega, z b0 i (by omega),
      z b1 (i - 8) (by omega), z b2 (i - 16) (by omega), show i - 8 - 8 - 8 < 32 by omega,
      show i - 24 = i - 8 - 8 - 8 by omega]

/-- A pair of bit vectors side by side, as a number. -/
theorem toNat_append_eq {m n : Nat} (x : BitVec m) (y : BitVec n) :
    (x ++ y).toNat = 2 ^ n * x.toNat + y.toNat := by
  rw [BitVec.toNat_append, ← Nat.shiftLeft_add_eq_or_of_lt y.isLt, Nat.shiftLeft_eq, Nat.mul_comm]

theorem toNat_le32 (b0 b1 b2 b3 : Byte) :
    (le32 b0 b1 b2 b3).toNat
      = b0.toNat + 2 ^ 8 * b1.toNat + 2 ^ 16 * b2.toNat + 2 ^ 24 * b3.toNat := by
  rw [le32_eq_append, toNat_append_eq, toNat_append_eq, toNat_append_eq]
  ring

end Sys2Proof.Machine
end

