-- ==== Sys2Proof/Laws/PerInstr.lean ====
section
/-!
SUPPORT. Facts about every command as syntax, one lemma per constructor of Instr (LAWS.json names the
family): a command's bytes are its opcode and its payload, 1 + len(p) in all, its opcode byte selects it and
nothing else of it depends on the payload (30_encoding.md R70, R72, R76).
-/

namespace Sys2Proof.Laws

/-- The encoding of a command has the length R70 gives and an opcode byte that selects the command (R72). -/
def EncodedShape.Statement (i : Instr) : Prop :=
  (encode i).length = 1 + i.payload.length ∧ decodeOp (opcodeByte i) = i.opcode

theorem EncodedShape.init (p : Bytes) : EncodedShape.Statement (.init p) := by
  simp [EncodedShape.Statement, encode, Instr.payload, Instr.opcode, decodeOp, opcodeByte, Nat.add_comm]

theorem EncodedShape.update (p : Bytes) : EncodedShape.Statement (.update p) := by
  simp [EncodedShape.Statement, encode, Instr.payload, Instr.opcode, decodeOp, opcodeByte, Nat.add_comm]

theorem EncodedShape.finalize (p : Bytes) : EncodedShape.Statement (.finalize p) := by
  simp [EncodedShape.Statement, encode, Instr.payload, Instr.opcode, decodeOp, opcodeByte, Nat.add_comm]

end Sys2Proof.Laws
end

