-- ==== Sys2Proof/Tests/Slice0.lean ====
section
/-!
SUPPORT. Tests: expected values are those of spec/95_test_vectors.md and of the worked examples of the rules; and
for each statement with hypotheses a theorem that shows they can all be met.
-/

namespace Sys2Proof.Tests

open Sys2Proof.Machine Sys2Proof.Safety

/-! ### Well-formedness (30_encoding.md R75) -/

theorem test_wf_refuses_payload_on_init : Instr.wf (.init [0x00]) = false := by decide
theorem test_wf_refuses_payload_on_finalize : Instr.wf (.finalize [0x00]) = false := by decide
theorem test_wf_accepts : Instr.wf (.init []) ∧ Instr.wf (.update [0x61]) ∧ Instr.wf (.finalize []) := by decide

/-! ### Decoding: words written out from R72 and R80 -/

theorem test_decode_init : decodeBytes [0b00000001] = .instr (.init []) := by decide
theorem test_decode_update :
    decodeBytes [0b00000010, 0b01100001, 0b01100010, 0b01100011] = .instr (.update [0x61, 0x62, 0x63]) := by decide
theorem test_decode_finalize : decodeBytes [0b00000011] = .instr (.finalize []) := by decide
/-- V-E rows E4, E5, E13: the bytes around the assigned opcodes are reserved (R74). -/
theorem test_decode_reserved :
    decodeBytes [0x00] = .reservedOpcode 0x00 ∧ decodeBytes [0x04] = .reservedOpcode 0x04 ∧
    decodeBytes [0x07] = .reservedOpcode 0x07 ∧ decodeBytes [0xFF] = .reservedOpcode 0xFF := by decide
theorem test_decode_table_word :
    decodeTableWord 8 1 = some (.init []) ∧ decodeTableWord 8 2 = some (.update []) ∧
    decodeTableWord 8 3 = some (.finalize []) ∧ decodeTableWord 8 4 = none := by decide
/-- Right after reset the step runs exactly the placed command: INIT answers, UPDATE meets IDLE (R202). -/
theorem test_fetch_word :
    step (State.reset.withFetchWord 8 1) = exec (.init []) State.reset ∧
    step (State.reset.withFetchWord 8 2) = exec (.update []) State.reset := ⟨rfl, rfl⟩

/-! ### The assembler (R78 to R80) -/

theorem test_asm_hash : assembleLine? "HASH \"abc\"  ; R80".toList = some [[0x01], [0x02, 0x61, 0x62, 0x63], [0x03]] := by
  decide
theorem test_asm_forms :
    assembleLine? "update rep(0x61, 2) ++ iota(255,3) ++ 0x0aFf ++ \"a;+\"".toList
      = some [[0x02, 0x61, 0x61, 0xff, 0x00, 0x01, 0x0a, 0xff, 0x61, 0x3b, 0x2b]] := by decide
theorem test_asm_empty_update : assembleLine? "UPDATE".toList = some [[0x02]] := by decide
theorem test_asm_refuses :
    assembleLine? "INIT 0x00".toList = none ∧ assembleLine? "UPDATE 0x0".toList = none := by decide

/-! ### Primitives (V-P) and single compressions (V-C) -/

theorem test_bool_functions :
    f0 0x12345678 0x9ABCDEF0 0x0F0F0F0F = 0x87878787 ∧ f1 0x12345678 0x9ABCDEF0 0x0F0F0F0F = 0x1F3F5F77 ∧
    f2 0x12345678 0x9ABCDEF0 0x0F0F0F0F = 0x78787870 ∧ f3 0x12345678 0x9ABCDEF0 0x0F0F0F0F = 0x92B4D6F8 ∧
    f4 0x12345678 0x9ABCDEF0 0x0F0F0F0F = 0xE8C8A888 := by decide
theorem test_rotate :
    rol 0x00000001 31 = 0x80000000 ∧ rol 0x80000000 15 = 0x00004000 ∧ rol 0x67452301 10 = 0x148C059D := by decide

/-- The final block of "abc" (V-C1). -/
def abcBlock : Bytes := [0x61, 0x62, 0x63, 0x80] ++ List.replicate 52 0 ++ le64Bytes 24

/-- V-C2, the last row: both lines after step 79. -/
theorem test_lines_after_last_step :
    runLines (schedule abcBlock) ⟨workRegsOf iv, workRegsOf iv⟩ 80 (Nat.le_refl 80)
      = ⟨⟨0x641129CA, 0xD563BFDC, 0x0B2CDC01, 0x6E413468, 0xFC433DA8⟩,
         ⟨0x81D4727D, 0x5FCCBADE, 0xBF627814, 0xFC0E2B04, 0x739C4C7A⟩⟩ := by decide +kernel
/-- V-C2, row 17: the second round of both lines has begun. -/
theorem test_lines_after_step_17 :
    runLines (schedule abcBlock) ⟨workRegsOf iv, workRegsOf iv⟩ 18 (by decide)
      = ⟨⟨0x53C14C52, 0x45C8FA44, 0x6347EF78, 0xEFD8A565, 0x18740A16⟩,
         ⟨0x0FD356CF, 0xACBB994E, 0x927E40A8, 0x1641E3FD, 0x5890B4F4⟩⟩ := by decide +kernel
/-- V-C4, row 2: only the constants, the tables and the functions. -/
theorem test_compress_zero :
    compress ⟨0, 0, 0, 0, 0⟩ (List.replicate 64 0)
      = some ⟨0x6BB9FE69, 0x3D09C7C0, 0x48ED6A0E, 0x7D117C5D, 0xADC8E12D⟩ := by decide +kernel
theorem test_compress_refuses_63_bytes : compress iv (List.replicate 63 0) = none := by decide

/-! ### The commands, one step each on a small state -/

/-- A live context with chaining state `h`, COUNT `count` and the bytes `p` at the front of BUF. -/
def live (h : Chain) (count : Count) (p : Bytes) : State :=
  { State.reset with phase := .absorb, h := h, count := count, buf := bufPut State.reset.buf 0 p }

/-- The answer of a command, with a part of the next state. -/
def after {α : Type} (o : Host.Outcome State Fault Refusal) (part : State → α) : Option α :=
  match o with
  | .next t => some (part t)
  | .fault _ => none
  | .refused _ => none

/-- V-E row E1. -/
theorem test_init_from_reset :
    after (exec (.init []) State.reset) (fun t => (t.h, t.count, status t, t.responses.map responseBytes))
      = some (⟨0x67452301, 0xEFCDAB89, 0x98BADCFE, 0x10325476, 0xC3D2E1F0⟩, 0, 0x01, [[0x00]]) := by decide
/-- V-E row E6. -/
theorem test_init_with_payload :
    after (exec (.init [0x00]) (live iv 0 [])) (fun t => (status t, t.responses.map responseBytes))
      = some (0x07, [[0x02, 0x01]]) := by decide
/-- P2's second UPDATE: need = 1, one compression (V-C4, row 3), a tail of one byte at BUF[0]. -/
theorem test_update_crosses_a_block :
    after (exec (.update [0x61, 0x61]) (live iv 504 (List.replicate 63 0x61)))
      (fun t => (t.h, t.count, validPrefix t))
      = some (⟨0xD42339F0, 0xCE5B9F6F, 0x2874A075, 0xDF67AAF1, 0xC6C1BE1C⟩, 520, [0x61]) := by decide +kernel
/-- V-U row U10 under COUNT_OVERFLOW = Fault. -/
theorem test_update_overflow_faults :
    after (exec (.update [0x00]) { live iv (BitVec.ofNat 64 (2 ^ 64 - 8)) [] with countOverflow := .fault })
      (fun t => (status t, t.count, t.responses.map responseBytes))
      = some (0x13, BitVec.ofNat 64 (2 ^ 64 - 8), [[0x02, 0x04]]) := by decide +kernel
/-- V-F1: FINALIZE after "abc". -/
theorem test_finalize_abc :
    after (exec (.finalize []) (live iv 24 [0x61, 0x62, 0x63]))
      (fun t => (t.count, status t, t.responses.map responseBytes))
      = some (512, 0x02, [[0x01, 0x8e, 0xb2, 0x08, 0xf7, 0xe0, 0x5d, 0x98, 0x7a, 0x9b, 0x04, 0x4a, 0x8e, 0x98,
          0xc6, 0xb0, 0x87, 0xf1, 0x5a, 0x0b, 0xfc]]) := by decide +kernel
/-- V-F3: two final blocks. -/
theorem test_finalize_two_blocks :
    after (exec (.finalize []) (live iv 448
        (byteExprBytes (.text "abcdbcdecdefdefgefghfghighijhijkijkljklmklmnlmnomnopnopq".toList)))) (fun t => (t.h, t.count))
      = some (⟨0x3853A012, 0x880C9C4A, 0x6CA005E4, 0x9AF4DC27, 0x2BEB62DA⟩, 1024) := by decide +kernel
/-- V-E rows E12 and E14: a reserved opcode in FAULT keeps the first cause; ILLEGAL_COMMAND outranks
NOT_INITIALISED. -/
theorem test_fault_order :
    after (step { State.reset with phase := .fault, cause := .spentContext, pending := [.command 0x07 []] })
      (fun t => (status t, t.responses.map responseBytes)) = some (0x0F, [[0x02, 0x03]]) ∧
    after (step { State.reset with pending := [.command 0x03 [0x00]] })
      (fun t => (status t, t.responses.map responseBytes)) = some (0x07, [[0x02, 0x01]]) := by decide
/-- STATUS and the FAULT response for each cause a faulted engine can hold: the values 95_test_vectors.md gives after
V-E for causes 1 to 4; for 5 the arithmetic of R27 on the codes of R25 and R26. -/
theorem test_status_codes :
    [Cause.illegalCommand, .notInitialised, .spentContext, .countOverflow, .blockLength].map (fun c =>
      (status { State.reset with phase := .fault, cause := c }, responseBytes (.fault c)))
      = [(0x07, [0x02, 0x01]), (0x0B, [0x02, 0x02]), (0x0F, [0x02, 0x03]), (0x13, [0x02, 0x04]),
         (0x17, [0x02, 0x05])] := by decide
/-- P5: hardware reset leaves FAULT with STATUS 0x00 and no response. -/
theorem test_reset_leaves_fault :
    after (step { State.reset with phase := .fault, cause := .notInitialised, pending := [.hardwareReset] })
      (fun t => (status t, t.responses)) = some (0x00, []) := by decide
/-- V-S1 and V-S5 (n = 65), on the one-piece definition the statements use. -/
theorem test_reference_digests :
    ripemd160 [] = [0x9c, 0x11, 0x85, 0xa5, 0xc5, 0xe9, 0xfc, 0x54, 0x61, 0x28, 0x08, 0x97, 0x7e, 0xe8, 0xf5, 0x48,
      0xb2, 0x25, 0x8d, 0x31] ∧
    ripemd160 (List.replicate 65 0x61) = [0x99, 0x72, 0x4b, 0xb1, 0x18, 0x11, 0xe7, 0x16, 0x6a, 0xf3, 0x8f, 0x67,
      0x1b, 0x6a, 0x08, 0x2d, 0x8a, 0xb4, 0x96, 0x0b] := by decide +kernel

/-! ### Witnesses: the hypotheses of each statement can be met -/

/-- The state whose host is about to perform `a`. -/
def about (a : HostAction) : State := { State.reset with pending := [a] }

/-- A faulted engine. -/
def faulted (c : Cause) : State := { State.reset with phase := .fault, cause := c }

theorem test_hyp_rotate : (0 < 1 ∧ 1 < 32) ∧ (0 < 31 ∧ 31 < 32) ∧ 0 < 32 := by decide
theorem test_hyp_rounds :
    ((0 : Fin 80).val < 16 ∧ (15 : Fin 80).val < 16) ∧
    (16 ≤ (16 : Fin 80).val ∧ (31 : Fin 80).val < 32) ∧ (32 ≤ (32 : Fin 80).val ∧ (47 : Fin 80).val < 48) ∧
    (48 ≤ (48 : Fin 80).val ∧ (63 : Fin 80).val < 64) ∧ 64 ≤ (64 : Fin 80).val ∧ 64 ≤ (79 : Fin 80).val := by decide
theorem test_hyp_interleave :
    (List.replicate 80 true ++ List.replicate 80 false).count true = 80 ∧
    (List.replicate 80 true ++ List.replicate 80 false).count false = 80 := by decide +kernel
theorem test_hyp_block : (List.replicate 64 (0 : Byte)).length = 64 ∧ (List.replicate 63 (0 : Byte)).length ≠ 64 := by
  decide
/-- BlockLengthIsNeverRaised, InitFrame, FaultEntryIsPrecise and the other statements about what a command answers. -/
theorem test_hyp_init_answers :
    (∃ t, exec (.init []) State.reset = .next t) ∧ (∃ t, exec (.init [0]) State.reset = .next t) ∧
    (∃ t, exec (.init []) (faulted .spentContext) = .next t) ∧ State.reset.cause ≠ .blockLength ∧
    State.reset.phase ≠ .fault ∧ ([0] : Bytes) ≠ [] := ⟨⟨_, rfl⟩, ⟨_, rfl⟩, ⟨_, rfl⟩, by decide, by decide, by decide⟩
/-- UpdateAbsorbsThePayload, the two path statements at their boundary (have = 63: L = 0 and L = 1; have = 0: L = 63
and L = 64), EmptyUpdateChangesNothing and ChunkingLeavesTheSameContext. -/
theorem test_hyp_update :
    (live iv 504 []).phase = .absorb ∧ (live iv 504 []).countOverflow ≠ .fault ∧
    ([] : Bytes).length < 64 - haveOf 504 ∧ 64 - haveOf 504 ≤ ([0x61] : Bytes).length ∧
    (List.replicate 63 (0 : Byte)).length < 64 - haveOf 0 ∧ 64 - haveOf 0 ≤ (List.replicate 64 (0 : Byte)).length := by
  decide
/-- The same statements with the parameter Fault and no overflow. -/
theorem test_hyp_update_mode_fault :
    ¬({ live iv 504 [] with countOverflow := .fault }.countOverflow = .fault ∧
      2 ^ 64 ≤ (live iv 504 []).count.toNat + 8 * ([0x61] : Bytes).length) := by decide
/-- UpdateFrame: PHASE stays, and PHASE becomes FAULT. -/
theorem test_hyp_update_frame :
    (∃ t, exec (.update []) (live iv 0 []) = .next t ∧ t.phase = (live iv 0 []).phase) ∧
    ∃ t, exec (.update []) State.reset = .next t ∧ t.phase = .fault :=
  ⟨⟨_, execUpdate_ok rfl (by decide), rfl⟩, ⟨_, rfl, rfl⟩⟩
/-- PadLengthEndsABlock at both ends of both ranges, and PadIsMarkerThenZeros. -/
theorem test_hyp_pad :
    0 = (0 : Count).toNat / 8 % 64 ∧ 55 = (440 : Count).toNat / 8 % 64 ∧ 56 = (448 : Count).toNat / 8 % 64 ∧
    63 = (504 : Count).toNat / 8 % 64 ∧ 0 ≤ 55 ∧ 55 ≤ 55 ∧ 56 ≤ 56 ∧ 56 ≤ 63 ∧ 9 ≤ 9 := by decide
/-- FinalizeRespondsTheDigest and FinalizeBufferBytes, with have = 0, 55, 56 and 63. -/
theorem test_hyp_finalize :
    ∀ c ∈ [(0 : Count), 440, 448, 504], (live iv c []).phase = .absorb ∧
      ∃ t, exec (.finalize []) (live iv c []) = .next t ∧ t.phase = .spent :=
  fun c _ => ⟨rfl, _, execFinalize_ok rfl (fun h => by simp [live, State.reset] at h), rfl⟩
theorem test_finalize_have_values :
    haveOf 0 = 0 ∧ haveOf 440 = 55 ∧ haveOf 448 = 56 ∧ haveOf 504 = 63 := by decide
theorem test_hyp_finalize_frame_fault : ∃ t, exec (.finalize []) State.reset = .next t ∧ t.phase = .fault :=
  ⟨_, rfl, rfl⟩
/-- IllegalCommandsFault at the ends of its ranges, StepRunsTheDecodedCommand and OneResponsePerCommand. -/
theorem test_hyp_commands :
    (about (.command 0x00 [])).phase ≠ .fault ∧ (about (.command 0x00 [])).pending = .command 0x00 [] :: [] ∧
    (0x04 : Byte) ≤ 0x04 ∧ (0x04 : Byte) ≤ 0xFF ∧ decodeBytes (0x01 :: []) = .instr (.init []) := by decide
theorem test_hyp_idle_and_spent :
    State.reset.phase = .idle ∧ { State.reset with phase := .spent }.phase = .spent := by decide
/-- CountOverflowFaults: UPDATE, FINALIZE (padlen is 65), and the parameter Wrap. -/
theorem test_hyp_overflow :
    (live iv (BitVec.ofNat 64 (2 ^ 64 - 8)) []).phase = .absorb ∧
    2 ^ 64 ≤ (BitVec.ofNat 64 (2 ^ 64 - 8)).toNat + 8 * ([0x61] : Bytes).length ∧
    2 ^ 64 ≤ (BitVec.ofNat 64 (2 ^ 64 - 8)).toNat + 8 * padLen (haveOf (BitVec.ofNat 64 (2 ^ 64 - 8))) ∧
    State.reset.countOverflow = .wrap := by decide
/-- CountOverflowFaults, last part: a command that ends with the cause COUNT_OVERFLOW under Wrap. -/
theorem test_hyp_overflow_kept :
    ∃ t, exec (.init []) (faulted .countOverflow) = .next t ∧ t.cause = .countOverflow ∧
      (faulted .countOverflow).countOverflow = .wrap := ⟨_, rfl, rfl, rfl⟩
/-- FirstFaultInOrderIsTaken: each cause can come first, and none can. -/
theorem test_hyp_first_fault :
    firstFault 0x00 [] State.reset = some .illegalCommand ∧ firstFault 0x01 [0] State.reset = some .illegalCommand ∧
    firstFault 0x02 [] State.reset = some .notInitialised ∧
    firstFault 0x03 [] { State.reset with phase := .spent } = some .spentContext ∧
    firstFault 0x02 [0] { live iv (BitVec.ofNat 64 (2 ^ 64 - 8)) [] with countOverflow := .fault }
      = some .countOverflow ∧
    firstFault 0x03 [] (live iv 0 []) = none := by decide
theorem test_hyp_in_fault :
    { about (.command 0x01 []) with phase := .fault }.phase = .fault ∧
    ∃ t, step { about .hardwareReset with phase := .fault } = .next t ∧ t.phase ≠ .fault := ⟨rfl, _, rfl, by decide⟩
/-- CauseStaysUntilReset, both conclusions. -/
theorem test_hyp_cause :
    (∀ rest, (about (.command 0x01 [])).pending ≠ .hardwareReset :: rest) ∧
    (∀ op p rest, (about (.command 0x01 [])).pending ≠ .commandCutByReset op p :: rest) ∧
    (∃ t, step (about (.command 0x01 [])) = .next t ∧ t.phase ≠ .fault) ∧
    ∃ t, step { about (.command 0x01 []) with phase := .fault } = .next t :=
  ⟨fun _ h => by simp [about] at h, fun _ _ _ h => by simp [about] at h, ⟨_, rfl, by decide⟩, _, rfl⟩
theorem test_hyp_fault_entry :
    ∃ t, exec (.update []) State.reset = .next t ∧ State.reset.phase ≠ .fault ∧ t.phase = .fault :=
  ⟨_, rfl, by decide, rfl⟩
/-- ChainChangesOnlyByCompression. -/
theorem test_hyp_chain_changes :
    ∃ t, step (about (.command 0x01 [])) = .next t ∧ t.h ≠ (about (.command 0x01 [])).h := ⟨_, rfl, by decide⟩
/-- ReadingStatusHasNoSideEffect, HardwareResetReturnsToIdle, EngineHoldsBetweenCommands, ParameterNeverChanges. -/
theorem test_hyp_host_actions :
    (about .readStatus).pending = .readStatus :: [] ∧ (about .hardwareReset).pending = .hardwareReset :: [] ∧
    (∃ op p, (about (.commandCutByReset 0x02 [0x61])).pending = .commandCutByReset op p :: []) ∧
    State.reset.pending = [] ∧ ∃ t, step State.reset = .next t := ⟨rfl, rfl, ⟨_, _, rfl⟩, rfl, _, rfl⟩
/-- EveryStepKeepsTheInvariant. -/
theorem test_hyp_invariant : Inv (live iv 24 []) ∧ ∃ t, step (live iv 24 []) = .next t :=
  ⟨⟨by decide, by decide, by decide, by decide, by simp [live, State.reset]⟩, _, rfl⟩
/-- ContextFollowsTheMessage: the context of "abc" (V-U row U2). -/
theorem test_hyp_context :
    Holds [0x61, 0x62, 0x63] (live iv 24 [0x61, 0x62, 0x63]) ∧ (live iv 24 [0x61, 0x62, 0x63]).phase = .absorb :=
  ⟨⟨by decide, by decide, by decide⟩, rfl⟩
/-- UnspecifiedStateIsNeverObserved: two different states that only unspecified registers tell apart. -/
theorem test_hyp_indistinguishable :
    Indistinguishable State.reset { State.reset with h := iv, count := 24 } ∧
    State.reset ≠ { State.reset with h := iv, count := 24 } :=
  ⟨⟨rfl, rfl, rfl, rfl, rfl, rfl, by decide, by decide, by decide⟩, by decide⟩
/-- MessageScriptGivesTheDigest. -/
theorem test_hyp_script :
    CleanEntry State.reset ∧ State.reset.countOverflow = .wrap ∧
    { State.reset with pending := messageScript [[0x61], []] }.pending = messageScript [[0x61], []] ++ [] := by decide
/-- HashRespondsTheDigest, outside FAULT and in it. -/
theorem test_hyp_hash :
    { State.reset with pending := issueAll (hashCommands [0x61]) }.pending = issueAll (hashCommands [0x61]) ++ [] ∧
    State.reset.phase ≠ .fault ∧ (faulted .spentContext).phase = .fault := by decide

end Sys2Proof.Tests
end

/-!
PROOFS. The scope of the model (00_scope.md): the packings of R12, the parameter COUNT_OVERFLOW of R8, and that
one step is one command (R7), which always answers (R13).
-/

namespace Sys2Proof.Machine

/-! ### The packings (R12) -/

/-- `le32_bytes` undoes `le32`: byte k of the four side by side is the k-th. -/
theorem le32Bytes_le32 (b0 b1 b2 b3 : Byte) : le32Bytes (le32 b0 b1 b2 b3) = [b0, b1, b2, b3] := by
  have h0 : (le32 b0 b1 b2 b3).extractLsb' 0 8 = b0 := by
    rw [le32_eq_append, BitVec.extractLsb'_append_eq_right]
  have h1 : (le32 b0 b1 b2 b3).extractLsb' 8 8 = b1 := by
    rw [le32_eq_append, BitVec.extractLsb'_append_eq_of_le (by decide), BitVec.extractLsb'_append_eq_right]
  have h2 : (le32 b0 b1 b2 b3).extractLsb' 16 8 = b2 := by
    rw [le32_eq_append, BitVec.extractLsb'_append_eq_of_le (by decide),
      BitVec.extractLsb'_append_eq_of_le (by decide), BitVec.extractLsb'_append_eq_right]
  have h3 : (le32 b0 b1 b2 b3).extractLsb' 24 8 = b3 := by
    rw [le32_eq_append, BitVec.extractLsb'_append_eq_of_le (by decide),
      BitVec.extractLsb'_append_eq_of_le (by decide), BitVec.extractLsb'_append_eq_left]
  simp only [le32Bytes, h0, h1, h2, h3]

/-- `le32` undoes `le32_bytes`: neighbouring bytes of a word join, from the highest down. -/
theorem le32_extractLsb' (w : Word) :
    le32 (w.extractLsb' 0 8) (w.extractLsb' 8 8) (w.extractLsb' 16 8) (w.extractLsb' 24 8) = w := by
  rw [le32_eq_append, BitVec.extractLsb'_append_extractLsb'_eq_extractLsb' (by decide),
    BitVec.extractLsb'_append_extractLsb'_eq_extractLsb' (by decide),
    BitVec.extractLsb'_append_extractLsb'_eq_extractLsb' (by decide)]
  exact BitVec.extractLsb'_eq_self

/-- The listing of `le64_bytes` as one formula: byte k is bits 8k+7 to 8k. -/
theorem le64Bytes_eq_map (v : Count) : le64Bytes v = (List.range 8).map fun k => v.extractLsb' (8 * k) 8 :=
  rfl

theorem getElem?_le64Bytes (v : Count) {k : Nat} (hk : k < 8) :
    (le64Bytes v)[k]? = some (v.extractLsb' (8 * k) 8) := by
  rw [le64Bytes_eq_map, List.getElem?_map, List.getElem?_range hk, Option.map_some]

/-! ### COUNT_OVERFLOW is a parameter (R8) -/

@[simp] theorem initialised_countOverflow (s : State) : (initialised s).countOverflow = s.countOverflow := rfl
@[simp] theorem updated_countOverflow (p : Bytes) (s : State) : (updated p s).countOverflow = s.countOverflow := rfl
@[simp] theorem finalized_countOverflow (s : State) : (finalized s).countOverflow = s.countOverflow := rfl

@[simp] theorem reservedCommand_countOverflow (s : State) :
    (reservedCommand s).countOverflow = s.countOverflow := by
  unfold reservedCommand
  split
  · exact respondFault_countOverflow s
  · exact raise_countOverflow .illegalCommand s

/-- No command writes the parameter, on any path. -/
theorem exec_countOverflow {i : Instr} {s t : State} (h : exec i s = .next t) :
    t.countOverflow = s.countOverflow := by
  cases i with
  | init p =>
    obtain ⟨_, rfl⟩ | ⟨_, _, rfl⟩ | ⟨_, _, rfl⟩ := execInit_cases h <;> simp
  | update p =>
    obtain ⟨_, rfl⟩ | ⟨_, rfl⟩ | ⟨_, rfl⟩ | ⟨_, _, rfl⟩ | ⟨_, _, rfl⟩ := execUpdate_cases h <;> simp
  | finalize p =>
    obtain ⟨_, rfl⟩ | ⟨_, _, rfl⟩ | ⟨_, _, rfl⟩ | ⟨_, _, rfl⟩ | ⟨_, _, _, rfl⟩ | ⟨_, _, _, rfl⟩ :=
      execFinalize_cases h <;> simp

/-! ### One step is one command (R7), and it answers (R13) -/

/-- A step on a command that decodes is the command's meaning on the rest of the host's script. -/
theorem step_of_decodeCommand {s : State} {op : Byte} {p : Bytes} {rest : List HostAction} {i : Instr}
    (hp : s.pending = .command op p :: rest) (hd : decodeCommand op p = .instr i) :
    step s = exec i (s.afterAction rest) := by
  simp only [step, hp, hd]

/-- A command the host issues gets a next state, its opcode assigned or reserved. -/
theorem step_command_next {s : State} {op : Byte} {p : Bytes} {rest : List HostAction}
    (hp : s.pending = .command op p :: rest) : ∃ t, step s = .next t := by
  obtain ⟨-, h⟩ | ⟨-, h⟩ | ⟨-, h⟩ | ⟨-, h⟩ := step_command hp
  · rw [h]; exact exec_next (.init p) _
  · rw [h]; exact exec_next (.update p) _
  · rw [h]; exact exec_next (.finalize p) _
  · exact ⟨_, h⟩

/-- Every action of the host, and the lack of one, gives a next state. -/
theorem step_next (s : State) : ∃ t, step s = .next t := by
  cases hp : s.pending with
  | nil => exact ⟨s, by simp only [step, hp]⟩
  | cons a rest =>
    cases a with
    | command op p => exact step_command_next hp
    | readStatus => exact ⟨readStatus (s.afterAction rest), by simp only [step, hp]⟩
    | hardwareReset => exact ⟨hardReset (s.afterAction rest), by simp only [step, hp]⟩
    | commandCutByReset op p => exact ⟨hardReset (s.afterAction rest), by simp only [step, hp]⟩

/-- No step writes the parameter: each thing a step can do keeps it. -/
theorem step_countOverflow {s t : State} (h : step s = .next t) : t.countOverflow = s.countOverflow := by
  obtain ⟨-, rfl⟩ | ⟨op, p, rest, i, -, -, he⟩ | ⟨op, p, rest, -, -, rfl⟩ | ⟨rest, -, rfl⟩ | ⟨rest, -, rfl⟩ :=
    step_cases h
  · rfl
  · simpa using exec_countOverflow he
  · simp
  · simp
  · simp

/-! ### The statements -/

/-- Settles O10: the two inversions of `le32` and `le32_bytes`, and the bytes of `le64_bytes`. -/
theorem packingsAreInverse : Obligations.PackingsAreInverse := by
  refine ⟨fun b0 b1 b2 b3 => ⟨rfl, le32Bytes_le32 b0 b1 b2 b3⟩, fun w => ⟨rfl, le32_extractLsb' w⟩, fun v => ?_⟩
  exact ⟨length_le64Bytes v, fun _ hk => getElem?_le64Bytes v hk⟩

/-- Settles O23, by the cases of a step. -/
theorem parameterNeverChanges : Obligations.ParameterNeverChanges :=
  fun _ _ => step_countOverflow

/-- Settles O21: `decodeBytes` on an opcode and a payload is the `decodeCommand` of the step. -/
theorem stepRunsTheDecodedCommand : Obligations.StepRunsTheDecodedCommand :=
  fun _ _ _ _ _ hp hd => step_of_decodeCommand hp hd

/-- Settles O22, by the cases of the host's next action. -/
theorem everyStepAnswers : Obligations.EveryStepAnswers :=
  step_next

end Sys2Proof.Machine

/-!
PROOFS. The state (10_state.md): STATUS and the state after reset (R25 to R27, R36), what can change H (R21),
the context of a message (R23, R24), and that no response shows the unspecified state (R22, R24, R35, R36).
-/

namespace Sys2Proof.Machine

open Sys2Proof.Safety

/-! ### Two states no response tells apart (R22, R24, R35, R36) -/

/-- STATUS is computed from PHASE and CAUSE alone (R27). -/
theorem status_congr {s t : State} (hp : s.phase = t.phase) (hc : s.cause = t.cause) : status s = status t := by
  rw [status, status, hp, hc]

/-- A phase that none of UPDATE's and FINALIZE's checks refuses is ABSORB (R202, R203, R208). -/
theorem phase_eq_absorb {s : State} (hf : s.phase ≠ .fault) (hi : s.phase ≠ .idle) (hs : s.phase ≠ .spent) :
    s.phase = .absorb := by
  cases hp : s.phase
  · exact absurd hp hi
  · rfl
  · exact absurd hp hs
  · exact absurd hp hf

/-- UPDATE with Absorb's equation put in: the checks in their order, then the payload absorbed (R102). -/
theorem execUpdate_eq (p : Bytes) (s : State) :
    execUpdate p s = .next
      (if s.phase = .fault then respondFault s
      else if s.phase = .idle then raise .notInitialised s
      else if s.phase = .spent then raise .spentContext s
      else if overflows s p.length then raise .countOverflow s
      else respond .ok (updated p s)) := by
  rw [execUpdate, absorb_eq]
  rfl

/-- FINALIZE with the equation of its two Absorbs put in (R110). -/
theorem execFinalize_eq (p : Bytes) (s : State) :
    execFinalize p s = .next
      (if s.phase = .fault then respondFault s
      else if p ≠ [] then raise .illegalCommand s
      else if s.phase = .idle then raise .notInitialised s
      else if s.phase = .spent then raise .spentContext s
      else if overflows s (padLen (haveOf s.count)) then raise .countOverflow s
      else respond (.digest (digestBytes (finalized s).h)) (finalized s)) := by
  rw [execFinalize, absorbPadding_eq]
  rfl

/-- Outside ABSORB only what the host sees counts. -/
theorem indistinguishable_of_phase_ne {s t : State} (hp : s.phase = t.phase) (ha : s.phase ≠ .absorb)
    (hc : s.cause = t.cause) (ho : s.countOverflow = t.countOverflow) (hq : s.pending = t.pending)
    (hr : s.responses = t.responses) (hs : s.statusReads = t.statusReads) : Indistinguishable s t :=
  ⟨hp, hc, ho, hq, hr, hs, fun h => absurd h ha, fun h => absurd h ha, fun h => absurd h ha⟩

/-- A check that comes out the same on both sides leads to states that are again not told apart. -/
theorem indistinguishable_ite {c d : Prop} [Decidable c] [Decidable d] {s t u v : State} (hcd : c ↔ d)
    (hpos : c → Indistinguishable s t) (hneg : ¬c → Indistinguishable u v) :
    Indistinguishable (if c then s else u) (if d then t else v) := by
  by_cases hc : c
  · rw [if_pos hc, if_pos (hcd.1 hc)]
    exact hpos hc
  · rw [if_neg hc, if_neg (mt hcd.2 hc)]
    exact hneg hc

/-- INIT makes COUNT zero, and then no byte of BUF is valid (R101, R14). -/
theorem validPrefix_initialised (s : State) : validPrefix (initialised s) = [] := by
  have hz : haveOf (initialised s).count = 0 := haveOf_ofNat 0
  rw [validPrefix, hz, List.take_zero]

section Congruence

variable {s t : State}

theorem indistinguishable_respond (r : Response) (h : Indistinguishable s t) :
    Indistinguishable (respond r s) (respond r t) :=
  { h with responses := congrArg (· ++ [r]) h.responses }

theorem indistinguishable_afterAction (rest : List HostAction) (h : Indistinguishable s t) :
    Indistinguishable (s.afterAction rest) (t.afterAction rest) :=
  { h with pending := rfl }

theorem indistinguishable_readStatus (h : Indistinguishable s t) :
    Indistinguishable (readStatus s) (readStatus t) :=
  { h with
    statusReads := by
      rw [readStatus_statusReads, readStatus_statusReads, h.statusReads, status_congr h.phase h.cause] }

theorem indistinguishable_hardReset (h : Indistinguishable s t) :
    Indistinguishable (hardReset s) (hardReset t) :=
  indistinguishable_of_phase_ne rfl (by simp) rfl h.countOverflow h.pending h.responses h.statusReads

theorem indistinguishable_raise (c : Cause) (h : Indistinguishable s t) :
    Indistinguishable (raise c s) (raise c t) :=
  indistinguishable_of_phase_ne rfl (by simp) rfl h.countOverflow h.pending (by simp [h.responses]) h.statusReads

theorem indistinguishable_respondFault (h : Indistinguishable s t) :
    Indistinguishable (respondFault s) (respondFault t) := by
  rw [respondFault, respondFault, h.cause]
  exact indistinguishable_respond _ h

/-- INIT gives H and COUNT new values, whatever they were (R101). -/
theorem indistinguishable_initialised (h : Indistinguishable s t) :
    Indistinguishable (initialised s) (initialised t) where
  phase := rfl
  cause := h.cause
  countOverflow := h.countOverflow
  pending := h.pending
  responses := h.responses
  statusReads := h.statusReads
  chain _ := rfl
  bits _ := rfl
  tail _ := by rw [validPrefix_initialised, validPrefix_initialised]

/-- UPDATE reads H, COUNT and the valid bytes of BUF, and no stale byte becomes valid (R105 to R108). -/
theorem indistinguishable_updated (p : Bytes) (ha : s.phase = .absorb) (h : Indistinguishable s t) :
    Indistinguishable (updated p s) (updated p t) :=
  { h with
    chain := fun _ => by simp only [updated, h.chain ha, h.bits ha, h.tail ha]
    bits := fun _ => by simp only [updated, h.bits ha]
    tail := fun _ => by simp only [validPrefix_updated, h.bits ha, h.tail ha] }

/-- FINALIZE leaves a SPENT context, of which nothing but the digest is seen. -/
theorem indistinguishable_finalized (h : Indistinguishable s t) :
    Indistinguishable (finalized s) (finalized t) :=
  indistinguishable_of_phase_ne rfl (by simp [finalized]) h.cause h.countOverflow h.pending h.responses h.statusReads

/-- The digest is made of H, COUNT and the valid bytes of BUF. -/
theorem finalized_h_congr (ha : s.phase = .absorb) (h : Indistinguishable s t) :
    (finalized s).h = (finalized t).h := by
  simp only [finalized, h.chain ha, h.bits ha, h.tail ha]

/-- The test of COUNT_OVERFLOW is made in ABSORB alone, where COUNT is specified (R204). -/
theorem overflows_congr (n : Nat) (ha : s.phase = .absorb) (h : Indistinguishable s t) :
    overflows s n = overflows t n := by
  rw [overflows, overflows, h.bits ha, h.countOverflow]

theorem phase_eq_iff (q : Phase) (h : Indistinguishable s t) : s.phase = q ↔ t.phase = q := by
  rw [h.phase]

theorem indistinguishable_reservedCommand (h : Indistinguishable s t) :
    Indistinguishable (reservedCommand s) (reservedCommand t) :=
  indistinguishable_ite (phase_eq_iff .fault h) (fun _ => indistinguishable_respondFault h)
    fun _ => indistinguishable_raise .illegalCommand h

theorem execInit_indistinguishable (p : Bytes) (h : Indistinguishable s t) :
    ∃ s' t', execInit p s = .next s' ∧ execInit p t = .next t' ∧ Indistinguishable s' t' := by
  refine ⟨_, _, rfl, rfl, ?_⟩
  refine indistinguishable_ite (phase_eq_iff .fault h) (fun _ => indistinguishable_respondFault h) fun _ => ?_
  refine indistinguishable_ite Iff.rfl (fun _ => indistinguishable_raise .illegalCommand h) fun _ => ?_
  exact indistinguishable_respond .ok (indistinguishable_initialised h)

theorem execUpdate_indistinguishable (p : Bytes) (h : Indistinguishable s t) :
    ∃ s' t', execUpdate p s = .next s' ∧ execUpdate p t = .next t' ∧ Indistinguishable s' t' := by
  refine ⟨_, _, execUpdate_eq p s, execUpdate_eq p t, ?_⟩
  refine indistinguishable_ite (phase_eq_iff .fault h) (fun _ => indistinguishable_respondFault h) fun hf => ?_
  refine indistinguishable_ite (phase_eq_iff .idle h) (fun _ => indistinguishable_raise .notInitialised h) fun hi => ?_
  refine indistinguishable_ite (phase_eq_iff .spent h) (fun _ => indistinguishable_raise .spentContext h) fun hs => ?_
  have ha : s.phase = .absorb := phase_eq_absorb hf hi hs
  refine indistinguishable_ite (by rw [overflows_congr _ ha h]) (fun _ => indistinguishable_raise .countOverflow h)
    fun _ => ?_
  exact indistinguishable_respond .ok (indistinguishable_updated p ha h)

theorem execFinalize_indistinguishable (p : Bytes) (h : Indistinguishable s t) :
    ∃ s' t', execFinalize p s = .next s' ∧ execFinalize p t = .next t' ∧ Indistinguishable s' t' := by
  refine ⟨_, _, execFinalize_eq p s, execFinalize_eq p t, ?_⟩
  refine indistinguishable_ite (phase_eq_iff .fault h) (fun _ => indistinguishable_respondFault h) fun hf => ?_
  refine indistinguishable_ite Iff.rfl (fun _ => indistinguishable_raise .illegalCommand h) fun _ => ?_
  refine indistinguishable_ite (phase_eq_iff .idle h) (fun _ => indistinguishable_raise .notInitialised h) fun hi => ?_
  refine indistinguishable_ite (phase_eq_iff .spent h) (fun _ => indistinguishable_raise .spentContext h) fun hs => ?_
  have ha : s.phase = .absorb := phase_eq_absorb hf hi hs
  refine indistinguishable_ite (by rw [h.bits ha, overflows_congr _ ha h])
    (fun _ => indistinguishable_raise .countOverflow h) fun _ => ?_
  rw [finalized_h_congr ha h]
  exact indistinguishable_respond _ (indistinguishable_finalized h)

theorem exec_indistinguishable (i : Instr) (h : Indistinguishable s t) :
    ∃ s' t', exec i s = .next s' ∧ exec i t = .next t' ∧ Indistinguishable s' t' := by
  cases i with
  | init p => exact execInit_indistinguishable p h
  | update p => exact execUpdate_indistinguishable p h
  | finalize p => exact execFinalize_indistinguishable p h

/-- A step from two states that are not told apart: the host's next action is the same on both sides. -/
theorem step_indistinguishable (h : Indistinguishable s t) :
    ∃ s' t', step s = .next s' ∧ step t = .next t' ∧ Indistinguishable s' t' := by
  unfold step
  rw [← h.pending]
  cases s.pending with
  | nil => exact ⟨s, t, rfl, rfl, h⟩
  | cons a rest =>
    have hr := indistinguishable_afterAction rest h
    cases a with
    | command op p =>
      dsimp only
      cases decodeCommand op p with
      | instr i => exact exec_indistinguishable i hr
      | reservedOpcode op' => exact ⟨_, _, rfl, rfl, indistinguishable_reservedCommand hr⟩
      | noOpcode => exact ⟨_, _, rfl, rfl, indistinguishable_reservedCommand hr⟩
    | readStatus => exact ⟨_, _, rfl, rfl, indistinguishable_readStatus hr⟩
    | hardwareReset => exact ⟨_, _, rfl, rfl, indistinguishable_hardReset hr⟩
    | commandCutByReset op p => exact ⟨_, _, rfl, rfl, indistinguishable_hardReset hr⟩

end Congruence

/-! ### What can change H (R21) -/

@[simp] theorem reservedCommand_h (s : State) : (reservedCommand s).h = s.h := by
  unfold reservedCommand
  split
  · exact respondFault_h s
  · exact raise_h .illegalCommand s

/-- An UPDATE that completes no block compresses none (R105). -/
theorem updated_h_of_short {p : Bytes} {s : State} (h : haveOf s.count + p.length < 64) :
    (updated p s).h = s.h := by
  simp only [updated, Nat.div_eq_of_lt h, chainOver]

theorem execInit_h_ne {p : Bytes} {s t : State} (h : execInit p s = .next t) (hne : t.h ≠ s.h) : p = [] := by
  obtain ⟨-, rfl⟩ | ⟨-, -, rfl⟩ | ⟨-, hp, -⟩ := execInit_cases h
  · exact absurd rfl hne
  · exact absurd rfl hne
  · exact hp

theorem execUpdate_h_ne {p : Bytes} {s t : State} (h : execUpdate p s = .next t) (hne : t.h ≠ s.h) :
    s.phase = .absorb ∧ 64 ≤ haveOf s.count + p.length := by
  obtain ⟨-, rfl⟩ | ⟨-, rfl⟩ | ⟨-, rfl⟩ | ⟨-, -, rfl⟩ | ⟨ha, -, rfl⟩ := execUpdate_cases h
  · exact absurd rfl hne
  · exact absurd rfl hne
  · exact absurd rfl hne
  · exact absurd rfl hne
  · exact ⟨ha, Nat.le_of_not_lt fun hlt => hne (updated_h_of_short hlt)⟩

theorem execFinalize_h_ne {p : Bytes} {s t : State} (h : execFinalize p s = .next t) (hne : t.h ≠ s.h) :
    s.phase = .absorb ∧ p = [] := by
  obtain ⟨-, rfl⟩ | ⟨-, -, rfl⟩ | ⟨-, -, rfl⟩ | ⟨-, -, rfl⟩ | ⟨-, -, -, rfl⟩ | ⟨ha, hp, -, -⟩ :=
    execFinalize_cases h
  · exact absurd rfl hne
  · exact absurd rfl hne
  · exact absurd rfl hne
  · exact absurd rfl hne
  · exact absurd rfl hne
  · exact ⟨ha, hp⟩

/-- The commands that can change H, and when. -/
theorem step_command_h_ne {s t : State} {op : Byte} {p : Bytes} {rest : List HostAction}
    (hp : s.pending = .command op p :: rest) (h : step s = .next t) (hne : t.h ≠ s.h) :
    s.pending = .command 0x01 [] :: rest ∨
      (s.phase = .absorb ∧ ∃ p, s.pending = .command 0x02 p :: rest ∧ 64 ≤ haveOf s.count + p.length) ∨
      (s.phase = .absorb ∧ s.pending = .command 0x03 [] :: rest) := by
  obtain ⟨rfl, he⟩ | ⟨rfl, he⟩ | ⟨rfl, he⟩ | ⟨-, he⟩ := step_command hp <;> rw [he] at h
  · obtain rfl := execInit_h_ne h hne
    exact .inl hp
  · obtain ⟨ha, hl⟩ := execUpdate_h_ne h hne
    exact .inr (.inl ⟨ha, p, hp, hl⟩)
  · obtain ⟨ha, rfl⟩ := execFinalize_h_ne h hne
    exact .inr (.inr ⟨ha, hp⟩)
  · obtain rfl := Host.Outcome.next.inj h
    exact absurd (reservedCommand_h _) hne

/-! ### The context of a message (R23, R24) -/

/-- COUNT after more bytes of the message (R103). -/
theorem advance_ofNat (m n : Nat) : advance (BitVec.ofNat 64 (8 * m)) n = BitVec.ofNat 64 (8 * (m + n)) := by
  rw [advance, Nat.mul_add, BitVec.ofNat_add]

theorem holds_respond {m : Bytes} {s : State} (r : Response) (h : Holds m s) : Holds m (respond r s) :=
  ⟨h.chain, h.bits, h.tail⟩

theorem holds_initialised (s : State) : Holds [] (initialised s) :=
  ⟨rfl, rfl, validPrefix_initialised s⟩

section Context

variable {m : Bytes} {s : State}

theorem haveOf_of_holds (h : Holds m s) : haveOf s.count = m.length % 64 := by
  rw [h.bits, haveOf_ofNat]

/-- The valid bytes of BUF and what comes after them: the message and what comes after it, from its last block
boundary on. -/
theorem validPrefix_append_of_holds (h : Holds m s) (q : Bytes) :
    validPrefix s ++ q = (m ++ q).drop (64 * (m.length / 64)) := by
  rw [h.tail, List.drop_append_of_le_length (Nat.mul_div_le _ _)]

/-- Going on from the context of `m` is going on behind the blocks of `m`. -/
theorem chainOver_of_holds (h : Holds m s) (n : Nat) (q : Bytes) :
    chainOver n s.h (validPrefix s ++ q) = chainOver (m.length / 64 + n) iv (m ++ q) := by
  rw [chainOver_add, chainOver_append _ _ _ _ (Nat.mul_div_le _ _), ← validPrefix_append_of_holds h, h.chain]

/-- UPDATE appends its payload to the message (R109). -/
theorem holds_updated (p : Bytes) (h : Holds m s) : Holds (m ++ p) (updated p s) := by
  have hn : (m ++ p).length / 64 = m.length / 64 + (haveOf s.count + p.length) / 64 := by
    rw [haveOf_of_holds h, List.length_append]
    omega
  refine ⟨?_, ?_, ?_⟩
  · rw [hn]
    exact chainOver_of_holds h _ p
  · rw [updated, h.bits, advance_ofNat, List.length_append]
  · rw [validPrefix_updated, validPrefix_append_of_holds h, List.drop_drop, hn, Nat.mul_add]

/-- FINALIZE completes the padded message (R111 to R113). -/
theorem digestBytes_finalized (h : Holds m s) : digestBytes (finalized s).h = ripemd160 m := by
  have hlt : m.length % 64 < 64 := Nat.mod_lt _ (by decide)
  have hb := padLen_bounds _ hlt
  have hn : (paddedMessage m).length / 64 = m.length / 64 + (m.length % 64 + padLen (m.length % 64)) / 64 := by
    rw [paddedMessage, List.length_append, List.length_append, length_padBytes _ hb.1, length_le64Bytes]
    omega
  rw [ripemd160, hn, paddedMessage, ← haveOf_of_holds h, ← h.bits, ← chainOver_of_holds h]
  rfl

end Context

/-! ### STATUS (R27) -/

theorem status_phase_field (s : State) : (status s).extractLsb' 0 2 = phaseCode s.phase := by
  rw [status, BitVec.extractLsb'_append_eq_right]

theorem status_cause_field (s : State) : (status s).extractLsb' 2 3 = causeCode s.cause := by
  rw [status, BitVec.extractLsb'_append_eq_of_le (by decide), BitVec.extractLsb'_append_eq_right]

theorem status_reserved_field (s : State) : (status s).extractLsb' 5 3 = 0 := by
  rw [status, BitVec.extractLsb'_append_eq_of_le (by decide), BitVec.extractLsb'_append_eq_left]

/-! ### The statements -/

/-- Settles O51, by the cases of the host's next action: each operation keeps two states alike. -/
theorem unspecifiedStateIsNeverObserved : Obligations.UnspecifiedStateIsNeverObserved :=
  fun _ _ => step_indistinguishable

/-- Settles O47, by the cases of a step. -/
theorem chainChangesOnlyByCompression : Obligations.ChainChangesOnlyByCompression := by
  intro s t h hne
  obtain ⟨-, rfl⟩ | ⟨_, _, rest, -, hp, -, -⟩ | ⟨_, _, rest, hp, -, -⟩ | ⟨_, -, rfl⟩ | ⟨rest, hp, -⟩ := step_cases h
  · exact absurd rfl hne
  · exact ⟨rest, (step_command_h_ne hp h hne).imp id (Or.imp id .inl)⟩
  · exact ⟨rest, (step_command_h_ne hp h hne).imp id (Or.imp id .inl)⟩
  · exact absurd rfl hne
  · exact ⟨rest, .inr (.inr (.inr hp))⟩

/-- Settles O50: INIT starts the context, UPDATE extends it, FINALIZE completes the padded message. -/
theorem contextFollowsTheMessage : Obligations.ContextFollowsTheMessage := by
  refine ⟨fun s hf => ?_, fun m p s h ha ho => ?_, fun m s h ha ho => ?_⟩
  · exact ⟨_, execInit_ok hf, holds_respond .ok (holds_initialised s), rfl⟩
  · exact ⟨_, execUpdate_ok ha ho, holds_respond .ok (holds_updated p h), ha⟩
  · exact ⟨_, execFinalize_ok ha ho, rfl, by rw [respond_responses, digestBytes_finalized h]; rfl⟩

/-- Settles O16: the fields of the concatenation, and the codes as the tables give them. -/
theorem statusReflectsPhaseAndCause : Obligations.StatusReflectsPhaseAndCause :=
  ⟨fun s => ⟨status_phase_field s, status_cause_field s, status_reserved_field s⟩,
    ⟨rfl, rfl, rfl, rfl⟩, rfl, rfl, rfl, rfl, rfl, rfl⟩

/-- Settles O17, by the step's arm for the read of STATUS. -/
theorem readingStatusHasNoSideEffect : Obligations.ReadingStatusHasNoSideEffect := by
  intro s rest hp
  simp only [step, hp]
  rfl

/-- Settles O18, by the values of `State.reset`. -/
theorem resetIsIdleWithoutFault : Obligations.ResetIsIdleWithoutFault :=
  ⟨rfl, rfl, by decide⟩

/-- Settles O48: at reset PHASE is IDLE, COUNT is zero and no response has been given. -/
theorem invariantHoldsAtReset : Obligations.InvariantHoldsAtReset where
  cause_none_iff := by decide
  no_block_length := by decide
  whole_bytes := by decide
  spent_on_boundary := by decide
  digest_length _ hd := absurd hd List.not_mem_nil

end Sys2Proof.Machine

/-!
PROOFS. The memory (20_memory.md): the message words of a block (R52) and the digest (R54).
-/

namespace Sys2Proof.Machine

/-! ### The message words (R52) -/

@[simp] theorem getElem_schedule (blk : Bytes) (i : Nat) (h : i < 16) : (schedule blk)[i] = messageWord blk i := by
  rw [schedule, Vector.getElem_ofFn]

theorem toNat_messageWord (blk : Bytes) (i : Nat) :
    (messageWord blk i).toNat = (blk.getD (4 * i) 0).toNat + 2 ^ 8 * (blk.getD (4 * i + 1) 0).toNat
      + 2 ^ 16 * (blk.getD (4 * i + 2) 0).toNat + 2 ^ 24 * (blk.getD (4 * i + 3) 0).toNat :=
  toNat_le32 _ _ _ _

/-! ### The statements -/

/-- Settles O9: an entry of the schedule is its message word, and `le32` as a number gives the byte order. -/
theorem messageWordsAreLittleEndian : Obligations.MessageWordsAreLittleEndian := by
  intro blk i _
  rw [Fin.getElem_fin, getElem_schedule]
  exact ⟨rfl, toNat_messageWord blk i.val⟩

/-- Settles O11: the digest is that concatenation by definition, of five times four bytes. -/
theorem digestIsWordsInOrder : Obligations.DigestIsWordsInOrder :=
  fun _ _ _ _ _ => ⟨rfl, length_digestBytes _⟩

end Sys2Proof.Machine

/-!
PROOFS. The encoding (30_encoding.md): decoding inverts encoding and rejects everything else by name (R70 to R76),
every command gives exactly one response (R77), and HASH is three commands (R79).
-/

namespace Sys2Proof.Machine

/-! ### Decoding and encoding (R70 to R76) -/

/-- A command's encoding decodes to that command, whatever its payload. -/
@[simp] theorem decodeBytes_encode (i : Instr) : decodeBytes (encode i) = .instr i := by
  cases i <;> rfl

/-- Only a command's own encoding decodes to it: the opcode byte and the payload can be read off. -/
theorem encode_of_decodeCommand {op : Byte} {p : Bytes} {i : Instr} (h : decodeCommand op p = .instr i) :
    op :: p = encode i := by
  unfold decodeCommand at h
  split at h
  · next hd =>
    rw [decodeOp_init.1 hd, ← Decoded.instr.inj h]
    rfl
  · next hd =>
    rw [decodeOp_update.1 hd, ← Decoded.instr.inj h]
    rfl
  · next hd =>
    rw [decodeOp_finalize.1 hd, ← Decoded.instr.inj h]
    rfl
  · cases h

theorem decodeBytes_eq_instr_iff {bs : Bytes} {i : Instr} : decodeBytes bs = .instr i ↔ bs = encode i := by
  refine ⟨fun h => ?_, fun h => h ▸ decodeBytes_encode i⟩
  cases bs with
  | nil => cases h
  | cons op p => exact encode_of_decodeCommand h

/-- A rejection names the opcode it rejects, and no other opcode is rejected (R74). -/
theorem decodeCommand_eq_reserved_iff {op op' : Byte} {p : Bytes} :
    decodeCommand op p = .reservedOpcode op' ↔ decodeOp op = .reserved ∧ op = op' := by
  unfold decodeCommand
  cases decodeOp op <;> simp

theorem decodeCommand_ne_noOpcode (op : Byte) (p : Bytes) : decodeCommand op p ≠ .noOpcode := by
  unfold decodeCommand
  cases decodeOp op <;> simp

theorem decodeBytes_eq_reserved_iff {bs : Bytes} {op : Byte} :
    decodeBytes bs = .reservedOpcode op ↔ decodeOp op = .reserved ∧ ∃ p, bs = op :: p := by
  cases bs with
  | nil => simp [decodeBytes]
  | cons op' p =>
    rw [decodeBytes, decodeCommand_eq_reserved_iff]
    constructor
    · rintro ⟨hr, rfl⟩
      exact ⟨hr, p, rfl⟩
    · rintro ⟨hr, _, he⟩
      obtain ⟨rfl, -⟩ := List.cons.inj he
      exact ⟨hr, rfl⟩

theorem decodeBytes_eq_noOpcode_iff {bs : Bytes} : decodeBytes bs = .noOpcode ↔ bs = [] := by
  cases bs with
  | nil => exact ⟨fun _ => rfl, fun _ => rfl⟩
  | cons op p => exact ⟨fun h => absurd h (decodeCommand_ne_noOpcode op p), fun h => nomatch h⟩

/-! ### One response per command (R77) -/

/-- The engine answered a command of opcode `op` with exactly one response more than the `before` it had given,
by one of the three rows of R77's table; `t` is the state after it. -/
def AnsweredOnce (op : Byte) (before : List Response) (t : State) : Prop :=
  ∃ r, t.responses = before ++ [r] ∧
    ((r = .ok ∧ (op = 0x01 ∨ op = 0x02) ∧ t.phase = .absorb ∧ responseBytes r = [0x00]) ∨
     (r = .digest (digestBytes t.h) ∧ op = 0x03 ∧ t.phase = .spent ∧ (digestBytes t.h).length = 20 ∧
        responseBytes r = 0x01 :: digestBytes t.h) ∨
     (r = .fault t.cause ∧ t.phase = .fault ∧ responseBytes r = [0x02, (causeCode t.cause).setWidth 8]))

section Answers

variable {op : Byte} {p : Bytes} {s t : State}

theorem answeredOnce_ok (hop : op = 0x01 ∨ op = 0x02) (ha : s.phase = .absorb) :
    AnsweredOnce op s.responses (respond .ok s) :=
  ⟨.ok, rfl, .inl ⟨rfl, hop, ha, rfl⟩⟩

theorem answeredOnce_digest (hs : s.phase = .spent) :
    AnsweredOnce 0x03 s.responses (respond (.digest (digestBytes s.h)) s) :=
  ⟨_, rfl, .inr (.inl ⟨rfl, rfl, hs, length_digestBytes _, rfl⟩)⟩

theorem answeredOnce_respondFault (hf : s.phase = .fault) : AnsweredOnce op s.responses (respondFault s) :=
  ⟨_, rfl, .inr (.inr ⟨rfl, hf, rfl⟩)⟩

theorem answeredOnce_raise (c : Cause) : AnsweredOnce op s.responses (raise c s) :=
  ⟨_, rfl, .inr (.inr ⟨rfl, rfl, rfl⟩)⟩

theorem answeredOnce_reservedCommand : AnsweredOnce op s.responses (reservedCommand s) := by
  unfold reservedCommand
  split
  · exact answeredOnce_respondFault ‹_›
  · exact answeredOnce_raise .illegalCommand

theorem execInit_answeredOnce (h : execInit p s = .next t) : AnsweredOnce 0x01 s.responses t := by
  obtain ⟨hf, rfl⟩ | ⟨-, -, rfl⟩ | ⟨-, -, rfl⟩ := execInit_cases h
  · exact answeredOnce_respondFault hf
  · exact answeredOnce_raise .illegalCommand
  · exact answeredOnce_ok (s := initialised s) (.inl rfl) rfl

theorem execUpdate_answeredOnce (h : execUpdate p s = .next t) : AnsweredOnce 0x02 s.responses t := by
  obtain ⟨hf, rfl⟩ | ⟨-, rfl⟩ | ⟨-, rfl⟩ | ⟨-, -, rfl⟩ | ⟨ha, -, rfl⟩ := execUpdate_cases h
  · exact answeredOnce_respondFault hf
  · exact answeredOnce_raise .notInitialised
  · exact answeredOnce_raise .spentContext
  · exact answeredOnce_raise .countOverflow
  · exact answeredOnce_ok (s := updated p s) (.inr rfl) ha

theorem execFinalize_answeredOnce (h : execFinalize p s = .next t) : AnsweredOnce 0x03 s.responses t := by
  obtain ⟨hf, rfl⟩ | ⟨-, -, rfl⟩ | ⟨-, -, rfl⟩ | ⟨-, -, rfl⟩ | ⟨-, -, -, rfl⟩ | ⟨-, -, -, rfl⟩ :=
    execFinalize_cases h
  · exact answeredOnce_respondFault hf
  · exact answeredOnce_raise .illegalCommand
  · exact answeredOnce_raise .notInitialised
  · exact answeredOnce_raise .spentContext
  · exact answeredOnce_raise .countOverflow
  · exact answeredOnce_digest (s := finalized s) rfl

theorem step_command_answeredOnce {rest : List HostAction} (hp : s.pending = .command op p :: rest)
    (h : step s = .next t) : AnsweredOnce op s.responses t := by
  obtain ⟨rfl, he⟩ | ⟨rfl, he⟩ | ⟨rfl, he⟩ | ⟨-, he⟩ := step_command hp <;> rw [he] at h
  · exact execInit_answeredOnce (s := s.afterAction rest) h
  · exact execUpdate_answeredOnce (s := s.afterAction rest) h
  · exact execFinalize_answeredOnce (s := s.afterAction rest) h
  · obtain rfl := Host.Outcome.next.inj h
    exact answeredOnce_reservedCommand (s := s.afterAction rest)

end Answers

/-! ### The statements -/

/-- Settles O13: decoding inverts encoding, and what is no encoding is rejected under its own name. -/
theorem decodeAndEncodeAgree : Obligations.DecodeAndEncodeAgree := by
  refine ⟨fun _ _ => decodeBytes_eq_instr_iff, fun bs op => ?_, fun _ => decodeBytes_eq_noOpcode_iff⟩
  rw [decodeBytes_eq_reserved_iff, decodeOp_reserved, and_assoc, and_assoc]

/-- Settles O46: the command answers a next state, and each of its outcomes is one row of R77's table. -/
theorem oneResponsePerCommand : Obligations.OneResponsePerCommand := by
  intro s op p rest hp
  obtain ⟨t, ht⟩ := step_command_next hp
  obtain ⟨r, hr, hrow⟩ := step_command_answeredOnce hp ht
  exact ⟨t, r, ht, hr, hrow⟩

/-- Settles O12: one equivalence for each of the four answers. -/
theorem opcodeDecodingIsTotal : Obligations.OpcodeDecodingIsTotal :=
  fun _ => ⟨decodeOp_init, decodeOp_update, decodeOp_finalize, decodeOp_reserved⟩

/-- Settles O14: the first four are encodings, and 0x00 is computed. -/
theorem workedEncodingsDecode : Obligations.WorkedEncodingsDecode :=
  ⟨decodeBytes_encode (.init []), decodeBytes_encode (.update [0x61, 0x62, 0x63]), decodeBytes_encode (.update []),
    decodeBytes_encode (.finalize []), rfl⟩

/-- Settles O15: the expansion and the encodings are as R79 lists them, by definition. -/
theorem hashExpandsToThreeCommands : Obligations.HashExpandsToThreeCommands :=
  fun _ => rfl

end Sys2Proof.Machine

/-!
PROOFS. The context commands (40_context_commands.md): what INIT, UPDATE and FINALIZE do and leave unchanged
(R101 to R115), that splitting a payload changes nothing (R109), and HASH as its three commands (R116).
-/

namespace Sys2Proof.Machine

open Sys2Proof.Safety

/-! ### The frame of every command (R8, R77, R207, R208) -/

/-- What no command writes, on any path: the parameter (R8), the host's script, its reads of STATUS, and the
counter of free values. -/
structure KeepsHostFields (s t : State) : Prop where
  countOverflow : t.countOverflow = s.countOverflow
  pending : t.pending = s.pending
  statusReads : t.statusReads = s.statusReads
  fresh : t.fresh = s.fresh

/-- The registers a fault leaves alone (R207, R208). -/
structure KeepsContext (s t : State) : Prop where
  h : t.h = s.h
  buf : t.buf = s.buf
  count : t.count = s.count

section Frame

variable {i : Instr} {s t : State}

theorem exec_keepsHostFields (h : exec i s = .next t) : KeepsHostFields s t := by
  cases i with
  | init p =>
    obtain ⟨-, rfl⟩ | ⟨-, -, rfl⟩ | ⟨-, -, rfl⟩ := execInit_cases h <;> exact ⟨rfl, rfl, rfl, rfl⟩
  | update p =>
    obtain ⟨-, rfl⟩ | ⟨-, rfl⟩ | ⟨-, rfl⟩ | ⟨-, -, rfl⟩ | ⟨-, -, rfl⟩ := execUpdate_cases h <;>
      exact ⟨rfl, rfl, rfl, rfl⟩
  | finalize p =>
    obtain ⟨-, rfl⟩ | ⟨-, -, rfl⟩ | ⟨-, -, rfl⟩ | ⟨-, -, rfl⟩ | ⟨-, -, -, rfl⟩ | ⟨-, -, -, rfl⟩ :=
      execFinalize_cases h <;> exact ⟨rfl, rfl, rfl, rfl⟩

/-- A command after which the engine is in FAULT changed no register of the context: the successful paths end in
ABSORB or SPENT. -/
theorem exec_keepsContext_of_fault (h : exec i s = .next t) (hf : t.phase = .fault) : KeepsContext s t := by
  cases i with
  | init p =>
    obtain ⟨-, rfl⟩ | ⟨-, -, rfl⟩ | ⟨-, -, rfl⟩ := execInit_cases h
    · exact ⟨rfl, rfl, rfl⟩
    · exact ⟨rfl, rfl, rfl⟩
    · cases hf
  | update p =>
    obtain ⟨-, rfl⟩ | ⟨-, rfl⟩ | ⟨-, rfl⟩ | ⟨-, -, rfl⟩ | ⟨ha, -, rfl⟩ := execUpdate_cases h
    · exact ⟨rfl, rfl, rfl⟩
    · exact ⟨rfl, rfl, rfl⟩
    · exact ⟨rfl, rfl, rfl⟩
    · exact ⟨rfl, rfl, rfl⟩
    · cases ha.symm.trans hf
  | finalize p =>
    obtain ⟨-, rfl⟩ | ⟨-, -, rfl⟩ | ⟨-, -, rfl⟩ | ⟨-, -, rfl⟩ | ⟨-, -, -, rfl⟩ | ⟨-, -, -, rfl⟩ :=
      execFinalize_cases h
    · exact ⟨rfl, rfl, rfl⟩
    · exact ⟨rfl, rfl, rfl⟩
    · exact ⟨rfl, rfl, rfl⟩
    · exact ⟨rfl, rfl, rfl⟩
    · exact ⟨rfl, rfl, rfl⟩
    · cases hf

theorem exec_adds_one_response (h : exec i s = .next t) : ∃ r, t.responses = s.responses ++ [r] := by
  cases i with
  | init p => exact (execInit_answeredOnce h).imp fun _ => And.left
  | update p => exact (execUpdate_answeredOnce h).imp fun _ => And.left
  | finalize p => exact (execFinalize_answeredOnce h).imp fun _ => And.left

/-- In FAULT every command is refused, whatever its payload (R208). -/
theorem exec_of_fault (i : Instr) (hf : s.phase = .fault) : exec i s = .next (respondFault s) := by
  cases i with
  | init p => exact congrArg Host.Outcome.next (if_pos hf)
  | update p => exact congrArg Host.Outcome.next (if_pos hf)
  | finalize p => exact congrArg Host.Outcome.next (if_pos hf)

end Frame

/-! ### INIT (R101) -/

section Init

variable {p : Bytes} {s t : State}

theorem execInit_of_payload (hf : s.phase ≠ .fault) (hp : p ≠ []) :
    execInit p s = .next (raise .illegalCommand s) := by
  rw [execInit, if_neg hf, if_pos hp]

theorem execInit_buf (h : execInit p s = .next t) : t.buf = s.buf := by
  obtain ⟨-, rfl⟩ | ⟨-, -, rfl⟩ | ⟨-, -, rfl⟩ := execInit_cases h <;> rfl

theorem execInit_cause (h : execInit p s = .next t) :
    t.cause = s.cause ∨ (p ≠ [] ∧ s.phase ≠ .fault ∧ t.cause = .illegalCommand) := by
  obtain ⟨-, rfl⟩ | ⟨hf, hp, rfl⟩ | ⟨-, -, rfl⟩ := execInit_cases h
  · exact .inl rfl
  · exact .inr ⟨hp, hf, rfl⟩
  · exact .inl rfl

theorem execInit_fails (h : execInit p s = .next t) (hc : p ≠ [] ∨ s.phase = .fault) : t.phase = .fault := by
  obtain ⟨hf, rfl⟩ | ⟨-, -, rfl⟩ | ⟨hf, hp, -⟩ := execInit_cases h
  · exact hf
  · rfl
  · exact hc.elim (absurd hp) fun h => absurd h hf

end Init

/-! ### UPDATE (R102 to R109) -/

section Update

variable {p : Bytes} {s t : State}

/-- The phase after UPDATE; where it is the one before, so is the cause. -/
theorem execUpdate_phase (h : execUpdate p s = .next t) :
    (t.phase = s.phase ∨ t.phase = .fault) ∧ (t.phase = s.phase → t.cause = s.cause) := by
  obtain ⟨-, rfl⟩ | ⟨hi, rfl⟩ | ⟨hs, rfl⟩ | ⟨ha, -, rfl⟩ | ⟨-, -, rfl⟩ := execUpdate_cases h
  · exact ⟨.inl rfl, fun _ => rfl⟩
  · exact ⟨.inr rfl, fun e => nomatch e.trans hi⟩
  · exact ⟨.inr rfl, fun e => nomatch e.trans hs⟩
  · exact ⟨.inr rfl, fun e => nomatch e.trans ha⟩
  · exact ⟨.inl rfl, fun _ => rfl⟩

/-- UPDATE ends in ABSORB only where it succeeds. -/
theorem execUpdate_absorb (h : execUpdate p s = .next t) (ha : t.phase = .absorb) :
    t = respond .ok (updated p s) := by
  obtain ⟨hf, rfl⟩ | ⟨-, rfl⟩ | ⟨-, rfl⟩ | ⟨-, -, rfl⟩ | ⟨-, -, rfl⟩ := execUpdate_cases h
  · cases hf.symm.trans ha
  · cases ha
  · cases ha
  · cases ha
  · rfl

theorem toNat_updated_count (p : Bytes) (s : State) :
    (updated p s).count.toNat = (s.count.toNat + 8 * p.length) % 2 ^ 64 :=
  toNat_advance _ _

theorem haveOf_updated (p : Bytes) (s : State) : haveOf (updated p s).count = (haveOf s.count + p.length) % 64 :=
  haveOf_advance _ _

/-- The case L = 0 of Absorb (R102). -/
@[simp] theorem updated_nil (s : State) : updated [] s = s := by
  have hlt := haveOf_lt s.count
  have hh : (updated [] s).h = s.h := updated_h_of_short hlt
  have hb : bufAfter s.buf (haveOf s.count) [] = s.buf := if_pos (Nat.sub_pos_of_lt hlt)
  have hc : (updated [] s).count = s.count := advance_zero s.count
  calc updated [] s
    _ = { s with count := (updated [] s).count, h := (updated [] s).h,
                 buf := bufAfter s.buf (haveOf s.count) [] } := rfl
    _ = s := by rw [hh, hb, hc]

/-- A payload that is short of a block does not wrap `have` (R105). -/
theorem haveOf_updated_short (h : haveOf s.count + p.length < 64) :
    haveOf (updated p s).count = haveOf s.count + p.length := by
  rw [haveOf_updated, Nat.mod_eq_of_lt h]

theorem getElem_updated_buf_short (h : haveOf s.count + p.length < 64) (i : Fin 64) :
    (updated p s).buf[i] =
      if haveOf s.count ≤ i.val ∧ i.val < haveOf s.count + p.length then p.getD (i.val - haveOf s.count) 0
      else s.buf[i] :=
  getElem_bufAfter_short _ _ _ (by omega) i.val i.isLt

/-- One block off the front, given as the bytes before the rest. -/
theorem chainOver_succ_append (n : Nat) (h : Chain) {blk : Bytes} (q : Bytes) (hl : blk.length = 64) :
    chainOver (n + 1) h (blk ++ q) = chainOver n (compressSchedule h (schedule blk)) q := by
  rw [chainOver, List.take_left' hl, List.drop_left' hl]

/-- The valid bytes and the first bytes of a payload that reaches the end of BUF make a block (R106). -/
theorem length_filledBlock (h : 64 - haveOf s.count ≤ p.length) :
    (validPrefix s ++ p.take (64 - haveOf s.count)).length = 64 := by
  have hlt := haveOf_lt s.count
  rw [List.length_append, length_validPrefix, List.length_take_of_le h]
  omega

/-- The fill path: the block that the valid bytes and the payload's first bytes make is compressed, then the
strides (R106, R107). -/
theorem updated_h_of_fill (h : 64 - haveOf s.count ≤ p.length) :
    (updated p s).h = chainOver ((p.length - (64 - haveOf s.count)) / 64)
      (compressSchedule s.h (schedule (validPrefix s ++ p.take (64 - haveOf s.count))))
      (p.drop (64 - haveOf s.count)) := by
  have hlt := haveOf_lt s.count
  have hn : (haveOf s.count + p.length) / 64 = (p.length - (64 - haveOf s.count)) / 64 + 1 := by omega
  rw [← chainOver_succ_append _ _ _ (length_filledBlock h), List.append_assoc, List.take_append_drop, ← hn]
  rfl

end Update

/-! ### Two UPDATEs and one (R109) -/

section Chunking

variable (a b : Bytes) (s : State)

/-- The complete blocks of the valid bytes and a payload lie within them. -/
theorem blocks_le_length : 64 * ((haveOf s.count + a.length) / 64) ≤ (validPrefix s ++ a).length := by
  rw [List.length_append, length_validPrefix]
  exact Nat.mul_div_le _ _

/-- The blocks of both payloads are those of the first, then those that its remainder makes with the second. -/
theorem blocks_append :
    (haveOf s.count + (a ++ b).length) / 64
      = (haveOf s.count + a.length) / 64 + (haveOf (updated a s).count + b.length) / 64 := by
  rw [haveOf_updated, List.length_append]
  omega

/-- What the first UPDATE leaves in BUF, with the second payload behind it. -/
theorem validPrefix_updated_append :
    validPrefix (updated a s) ++ b
      = (validPrefix s ++ (a ++ b)).drop (64 * ((haveOf s.count + a.length) / 64)) := by
  rw [validPrefix_updated, ← List.append_assoc, List.drop_append_of_le_length (blocks_le_length a s)]

theorem updated_updated_count : (updated b (updated a s)).count = (updated (a ++ b) s).count := by
  simp only [updated, advance_advance, List.length_append]

theorem updated_updated_h : (updated b (updated a s)).h = (updated (a ++ b) s).h := by
  calc (updated b (updated a s)).h
    _ = chainOver ((haveOf (updated a s).count + b.length) / 64)
          (chainOver ((haveOf s.count + a.length) / 64) s.h (validPrefix s ++ a))
          (validPrefix (updated a s) ++ b) := rfl
    _ = chainOver ((haveOf s.count + (a ++ b).length) / 64) s.h (validPrefix s ++ (a ++ b)) := by
      rw [blocks_append, chainOver_add, ← validPrefix_updated_append, ← List.append_assoc,
        chainOver_append _ _ _ _ (blocks_le_length a s)]
    _ = (updated (a ++ b) s).h := rfl

theorem validPrefix_updated_updated :
    validPrefix (updated b (updated a s)) = validPrefix (updated (a ++ b) s) := by
  rw [validPrefix_updated b, validPrefix_updated_append, List.drop_drop, validPrefix_updated, blocks_append,
    Nat.mul_add]

end Chunking

/-! ### FINALIZE (R110 to R115) -/

/-- The pad's bytes: the marker, then zeros (R112). -/
theorem getD_padBytes (padlen k : Nat) : (padBytes padlen).getD k 0 = if k = 0 then 0x80 else 0x00 := by
  cases k with
  | zero => rfl
  | succ k =>
    rw [padBytes, List.getD_cons_succ, if_neg k.succ_ne_zero, List.getD_eq_getElem?_getD]
    exact List.getElem?_getD_replicate_default_eq _ _ _

section Finalize

variable {p : Bytes} {s t : State}

/-- The phase after FINALIZE; a digest leaves the cause alone. -/
theorem execFinalize_phase (h : execFinalize p s = .next t) :
    (t.phase = .spent ∨ t.phase = .fault) ∧ (t.phase = .spent → t.cause = s.cause) := by
  obtain ⟨hf, rfl⟩ | ⟨-, -, rfl⟩ | ⟨-, -, rfl⟩ | ⟨-, -, rfl⟩ | ⟨-, -, -, rfl⟩ | ⟨-, -, -, rfl⟩ :=
    execFinalize_cases h
  · exact ⟨.inr hf, fun _ => rfl⟩
  · exact ⟨.inr rfl, fun e => nomatch e⟩
  · exact ⟨.inr rfl, fun e => nomatch e⟩
  · exact ⟨.inr rfl, fun e => nomatch e⟩
  · exact ⟨.inr rfl, fun e => nomatch e⟩
  · exact ⟨.inl rfl, fun _ => rfl⟩

/-- FINALIZE ends in SPENT only where it succeeds. -/
theorem execFinalize_spent (h : execFinalize p s = .next t) (hs : t.phase = .spent) :
    t = respond (.digest (digestBytes (finalized s).h)) (finalized s) := by
  obtain ⟨hf, rfl⟩ | ⟨-, -, rfl⟩ | ⟨-, -, rfl⟩ | ⟨-, -, rfl⟩ | ⟨-, -, -, rfl⟩ | ⟨-, -, -, rfl⟩ :=
    execFinalize_cases h
  · cases hf.symm.trans hs
  · cases hs
  · cases hs
  · cases hs
  · cases hs
  · rfl

end Finalize

/-- The first 56 bytes of BUF after the pad is absorbed: with `used` at least 56 the pad crosses a block boundary
and only its zeros remain there (R106 to R108, R112). -/
theorem getElem_bufAfter_pad (buf : Buffer) (used : Nat) (hu : used < 64) (i : Nat) (hi : i < 56) :
    (bufAfter buf used (padBytes (padLen used)))[i] =
      if 56 ≤ used then 0x00
      else if i < used then buf[i]
      else if i = used then 0x80
      else 0x00 := by
  have hlen := length_padBytes _ (padLen_bounds used hu).1
  rw [padLen_eq used hu] at hlen ⊢
  by_cases h56 : 56 ≤ used
  · rw [if_neg (by omega)] at hlen ⊢
    rw [getElem_bufAfter_fill _ _ _ hu (by omega), if_pos (by omega), getD_padBytes, if_neg (by omega), if_pos h56]
  · rw [if_pos (by omega)] at hlen ⊢
    rw [getElem_bufAfter_short _ _ _ (by omega), getD_padBytes, if_neg h56]
    by_cases hlt : i < used
    · rw [if_neg (by omega), if_pos hlt]
    · rw [if_pos (by omega), if_neg hlt]
      exact if_congr (by omega) rfl rfl

/-- BUF after FINALIZE's two Absorbs: the length field ends the last block, and below it stands the pad. -/
theorem getElem_bufPadded (buf : Buffer) (used : Nat) (hu : used < 64) (lengthField : Bytes)
    (hl : lengthField.length = 8) (i : Nat) (hi : i < 64) :
    (bufPadded buf used lengthField)[i] =
      if 56 ≤ i then lengthField.getD (i - 56) 0
      else if 56 ≤ used then 0x00
      else if i < used then buf[i]
      else if i = used then 0x80
      else 0x00 := by
  unfold bufPadded
  rw [getElem_bufAfter_fill _ _ _ (by omega) (by omega), if_neg (by omega)]
  by_cases h56 : 56 ≤ i
  · rw [if_pos h56, if_pos h56]
  · rw [if_neg h56, if_neg h56, getElem_bufAfter_pad _ _ hu _ (by omega)]

/-! ### HASH (R79, R116) -/

/-- The host's script for some commands starts with the first of them. -/
theorem step_issueAll {s : State} {c : Instr} {cs : List Instr} {rest : List HostAction}
    (hp : s.pending = issueAll (c :: cs) ++ rest) : step s = exec c (s.afterAction (issueAll cs ++ rest)) :=
  step_of_decodeCommand (op := opcodeByte c) (p := c.payload) hp (decodeBytes_encode c)

/-- In FAULT each command of a script is refused and nothing else happens (R208). -/
theorem run_issueAll_of_fault (cs : List Instr) {s : State} {rest : List HostAction} (hf : s.phase = .fault)
    (hp : s.pending = issueAll cs ++ rest) :
    Host.Core.run Sys2Proof.core cs.length s = .next
      { s with pending := rest, responses := s.responses ++ List.replicate cs.length (.fault s.cause) } := by
  induction cs generalizing s with
  | nil =>
    obtain rfl : s.pending = rest := hp
    rw [List.length_nil, List.replicate_zero, List.append_nil]
    rfl
  | cons c cs ih =>
    have hstep := (step_issueAll hp).trans (exec_of_fault c hf)
    rw [List.length_cons, run_succ hstep]
    refine (ih (s := respondFault (s.afterAction (issueAll cs ++ rest))) hf rfl).trans ?_
    rw [respondFault_responses, List.append_assoc]
    rfl

theorem not_overflow_of_wrap {s : State} (hw : s.countOverflow = .wrap) (n : Nat) :
    ¬(s.countOverflow = .fault ∧ 2 ^ 64 ≤ s.count.toNat + 8 * n) := by
  rintro ⟨hf, -⟩
  cases hw.symm.trans hf

theorem holds_afterAction {m : Bytes} {s : State} (rest : List HostAction) (h : Holds m s) :
    Holds m (s.afterAction rest) :=
  ⟨h.chain, h.bits, h.tail⟩

/-- Within a run under Wrap: a live context of the message `m`, with the host's script and the responses so far. -/
structure Absorbing (m : Bytes) (script : List HostAction) (answers : List Response) (s : State) : Prop where
  holds : Holds m s
  phase : s.phase = .absorb
  wrap : s.countOverflow = .wrap
  pending : s.pending = script
  responses : s.responses = answers

section Hash

variable {m p : Bytes} {s : State} {rest : List HostAction} {answers : List Response}

/-- INIT starts the empty message (R101). -/
theorem step_init_absorbing (hw : s.countOverflow = .wrap) (hf : s.phase ≠ .fault)
    (hp : s.pending = .command 0x01 [] :: rest) :
    ∃ t, step s = .next t ∧ Absorbing [] rest (s.responses ++ [.ok]) t :=
  ⟨_, (step_of_decodeCommand hp rfl).trans (execInit_ok hf),
    ⟨holds_respond .ok (holds_initialised _), rfl, hw, rfl, rfl⟩⟩

/-- UPDATE appends its payload to the message (R109). -/
theorem step_update_absorbing (h : Absorbing m (.command 0x02 p :: rest) answers s) :
    ∃ t, step s = .next t ∧ Absorbing (m ++ p) rest (answers ++ [.ok]) t := by
  obtain ⟨hm, ha, hw, hp, rfl⟩ := h
  have hexec := execUpdate_ok (s := s.afterAction rest) (p := p) ha (not_overflow_of_wrap hw _)
  exact ⟨_, (step_of_decodeCommand hp rfl).trans hexec,
    ⟨holds_respond .ok (holds_updated p (holds_afterAction rest hm)), ha, hw, rfl, rfl⟩⟩

/-- FINALIZE answers the message's digest (R114). -/
theorem step_finalize_absorbing (h : Absorbing m (.command 0x03 [] :: rest) answers s) :
    ∃ t, step s = .next t ∧ t.responses = answers ++ [.digest (ripemd160 m)] ∧ t.phase = .spent := by
  obtain ⟨hm, ha, hw, hp, rfl⟩ := h
  have hexec := execFinalize_ok (s := s.afterAction rest) ha (not_overflow_of_wrap hw _)
  rw [digestBytes_finalized (holds_afterAction rest hm)] at hexec
  exact ⟨_, (step_of_decodeCommand hp rfl).trans hexec, rfl, rfl⟩

/-- HASH outside FAULT: INIT makes the empty context, UPDATE the context of the message (R116). -/
theorem run_hashCommands (hw : s.countOverflow = .wrap) (hf : s.phase ≠ .fault)
    (hp : s.pending = issueAll (hashCommands m) ++ rest) :
    ∃ t : State, Host.Core.run Sys2Proof.core 3 s = .next t ∧
      t.responses = s.responses ++ [.ok, .ok, .digest (ripemd160 m)] ∧ t.phase = .spent := by
  obtain ⟨s1, hs1, h1⟩ := step_init_absorbing hw hf hp
  obtain ⟨s2, hs2, h2⟩ := step_update_absorbing h1
  obtain ⟨t, hs3, hr, ht⟩ := step_finalize_absorbing h2
  refine ⟨t, ?_, ?_, ht⟩
  · rw [run_succ hs1, run_succ hs2, run_succ hs3]
    rfl
  · rw [hr, List.append_assoc, List.append_assoc]
    rfl

end Hash

/-! ### The statements -/

/-- Settles O26: UPDATE succeeds, with Absorb's equation for H and for the valid bytes. -/
theorem updateAbsorbsThePayload : Obligations.UpdateAbsorbsThePayload :=
  fun p s ha ho => ⟨_, execUpdate_ok ha ho, toNat_updated_count p s, haveOf_updated p s, rfl,
    validPrefix_updated p s, ha, rfl, rfl⟩

/-- Settles O27: Absorb's short path, byte by byte. -/
theorem updateShortPathAppends : Obligations.UpdateShortPathAppends := by
  intro p s ha ho hL
  have hshort : haveOf s.count + p.length < 64 := by omega
  refine ⟨_, execUpdate_ok ha ho, updated_h_of_short hshort, haveOf_updated_short hshort, fun i hi => ?_⟩
  rw [respond_buf, getElem_updated_buf_short hshort]
  exact if_congr (and_iff_left hi) rfl rfl

/-- Settles O28: Absorb's fill path; the first block is compressed from BUF, the strides from the payload. -/
theorem updateFillPathCompresses : Obligations.UpdateFillPathCompresses := by
  rintro p s _ _ ha ho rfl hL rfl
  have hlt := haveOf_lt s.count
  have htail : (haveOf s.count + p.length) % 64 = (p.length - (64 - haveOf s.count)) % 64 := by omega
  refine ⟨_, _, execUpdate_ok ha ho, compress_eq_some (length_filledBlock hL), updated_h_of_fill hL, ?_,
    fun i => ?_⟩
  · rw [respond_count, haveOf_updated, htail]
  · rw [← htail]
    exact getElem_bufAfter_fill _ _ _ hlt hL i.val i.isLt

/-- Settles O31: the second UPDATE goes on from what the first one left. -/
theorem chunkingLeavesTheSameContext : Obligations.ChunkingLeavesTheSameContext := by
  intro a b s ha ho
  have hoa : ¬(s.countOverflow = .fault ∧ 2 ^ 64 ≤ s.count.toNat + 8 * a.length) :=
    fun ⟨hf, hle⟩ => ho ⟨hf, by omega⟩
  have hob : ¬((updated a s).countOverflow = .fault ∧ 2 ^ 64 ≤ (updated a s).count.toNat + 8 * b.length) := by
    rintro ⟨hf, hle⟩
    rw [toNat_updated_count] at hle
    exact ho ⟨hf, by omega⟩
  have hoab : ¬(s.countOverflow = .fault ∧ 2 ^ 64 ≤ s.count.toNat + 8 * (a ++ b).length) := by
    rwa [List.length_append]
  exact ⟨_, _, _, execUpdate_ok ha hoa, execUpdate_ok (s := respond .ok (updated a s)) ha hob, execUpdate_ok ha hoab,
    updated_updated_h a b s, updated_updated_count a b s, validPrefix_updated_updated a b s, rfl⟩

/-- Settles O34: FINALIZE succeeds, with the equation of its two Absorbs. -/
theorem finalizeRespondsTheDigest : Obligations.FinalizeRespondsTheDigest :=
  fun s ha ho => ⟨_, execFinalize_ok ha ho, rfl, rfl, rfl, rfl, toNat_advance _ _, haveOf_finalized s⟩

/-- Settles O35, by the two writes to BUF. -/
theorem finalizeBufferBytes : Obligations.FinalizeBufferBytes := by
  intro s t _ h hs i
  obtain rfl := execFinalize_spent h hs
  exact getElem_bufPadded s.buf _ (haveOf_lt _) _ (length_le64Bytes _) i.val i.isLt

/-- Settles O25, by the cases of INIT; both of its failures end in FAULT. -/
theorem initFrame : Obligations.InitFrame := by
  intro p s t h
  obtain ⟨hmode, hpending, hreads, hfresh⟩ := exec_keepsHostFields h
  refine ⟨execInit_buf h, hmode, hpending, hreads, hfresh, execInit_cause h, fun hc => ?_, exec_adds_one_response h⟩
  have hkeep := exec_keepsContext_of_fault h (execInit_fails h hc)
  exact ⟨hkeep.h, hkeep.count⟩

/-- Settles O30, by the cases of UPDATE; on the short path only the appended span of BUF is written. -/
theorem updateFrame : Obligations.UpdateFrame := by
  intro p s t h
  obtain ⟨hmode, hpending, hreads, hfresh⟩ := exec_keepsHostFields h
  obtain ⟨hphase, hcause⟩ := execUpdate_phase h
  refine ⟨hmode, hpending, hreads, hfresh, hphase, hcause, fun hf => ?_, fun ha hshort i hi => ?_,
    exec_adds_one_response h⟩
  · obtain ⟨hh, hbuf, hcount⟩ := exec_keepsContext_of_fault h hf
    exact ⟨hh, hbuf, hcount⟩
  · obtain rfl := execUpdate_absorb h ha
    rw [respond_buf, getElem_updated_buf_short hshort, if_neg (by omega)]

/-- Settles O36, by the cases of FINALIZE. -/
theorem finalizeFrame : Obligations.FinalizeFrame := by
  intro p s t h
  obtain ⟨hmode, hpending, hreads, hfresh⟩ := exec_keepsHostFields h
  obtain ⟨hphase, hcause⟩ := execFinalize_phase h
  refine ⟨hmode, hpending, hreads, hfresh, hphase, hcause, fun hf => ?_, exec_adds_one_response h⟩
  obtain ⟨hh, hbuf, hcount⟩ := exec_keepsContext_of_fault h hf
  exact ⟨hh, hbuf, hcount⟩

/-- Settles O53: the context follows the message through the three commands; in FAULT each is refused. -/
theorem hashRespondsTheDigest : Obligations.HashRespondsTheDigest :=
  fun _ m _ hw hp => ⟨fun hf => run_hashCommands hw hf hp, fun hf => run_issueAll_of_fault (hashCommands m) hf hp⟩

/-- Settles O24: the three ways INIT can go. -/
theorem initCreatesAFreshContext : Obligations.InitCreatesAFreshContext :=
  ⟨fun _ hf => execInit_ok hf, fun _ _ hf hp => execInit_of_payload hf hp, fun _ p hf => exec_of_fault (.init p) hf⟩

/-- Settles O29: no bytes cannot overflow COUNT, and absorbing none changes nothing. -/
theorem emptyUpdateChangesNothing : Obligations.EmptyUpdateChangesNothing := by
  intro s ha
  have ho : ¬(s.countOverflow = .fault ∧ 2 ^ 64 ≤ s.count.toNat + 8 * ([] : Bytes).length) :=
    fun ⟨_, hle⟩ => Nat.not_le_of_lt s.count.isLt hle
  have h := execUpdate_ok ha ho
  rwa [updated_nil] at h

/-- Settles O32: the definition of `padlen`, and its two ranges. -/
theorem padLengthEndsABlock : Obligations.PadLengthEndsABlock := by
  rintro count _ rfl
  have hlt := haveOf_lt count
  obtain ⟨hlow, hhigh⟩ := padLen_bounds _ hlt
  have hval := padLen_eq _ hlt
  refine ⟨rfl, hlow, hhigh, fun (hle : haveOf count ≤ 55) => ?_, fun (hge : 56 ≤ haveOf count) => ?_⟩
  · change haveOf count + padLen (haveOf count) = 64
    rw [if_pos hle] at hval
    omega
  · change haveOf count + padLen (haveOf count) = 128
    rw [if_neg (by omega)] at hval
    omega

/-- Settles O33: the pad as R112 lists it. -/
theorem padIsMarkerThenZeros : Obligations.PadIsMarkerThenZeros :=
  fun padlen h => ⟨rfl, length_padBytes padlen h⟩

end Sys2Proof.Machine

/-!
PROOFS. The compression transform (41_compression.md): its tables (R144 to R149), one step (R151 to R154), the order
of the 160 steps (R157), the combination (R155), and that no command raises BLOCK_LENGTH (R141).
-/

namespace Sys2Proof.Machine

open Sys2Proof.Safety

/-! ### Rounds and tables (R144 to R149) -/

/-- Round r is the 16 steps from 16r on (R144). -/
theorem roundOf_eq_iff {j : Fin 80} {r : Fin 5} : roundOf j = r ↔ 16 * r.val ≤ j.val ∧ j.val < 16 * r.val + 16 := by
  rw [Fin.ext_iff]
  change j.val / 16 = r.val ↔ _
  omega

/-- The two steps of a round: the left one with function r, the right one with its mirror 4 - r (R145, R152, R153). -/
theorem steps_of_round (x : Vector Word 16) (w : WorkRegs) {j : Fin 80} (r : Fin 5) (hlow : 16 * r.val ≤ j.val)
    (hhigh : j.val < 16 * r.val + 16) :
    leftStep x j w = lineStep (boolFun r) x[rl j] kl[r] (sl j) w ∧
    rightStep x j w = lineStep (boolFun (4 - r)) x[rr j] kr[r] (sr j) w := by
  obtain rfl := roundOf_eq_iff.2 ⟨hlow, hhigh⟩
  exact ⟨rfl, rfl⟩

theorem nodup_rlRows_rrRows : ∀ r : Fin 5, rlRows[r].toList.Nodup ∧ rrRows[r].toList.Nodup := by
  decide

theorem slRows_mem_amounts : ∀ (r : Fin 5) (k : Fin 16), slRows[r][k] ∈ [5, 6, 7, 8, 9, 11, 12, 13, 14, 15] := by
  decide

theorem srRows_mem_amounts : ∀ (r : Fin 5) (k : Fin 16), srRows[r][k] ∈ [5, 6, 7, 8, 9, 11, 12, 13, 14, 15] := by
  decide

/-! ### The order of the steps (R157) -/

/-- The two lines when the left one has taken its first `i` steps of `runLines` and the right one its first `j`. -/
def linesAt (x : Vector Word 16) (l : Lines) (i j : Nat) (hi : i ≤ 80) (hj : j ≤ 80) : Lines where
  left := (runLines x l i hi).left
  right := (runLines x l j hj).right

section Order

variable (x : Vector Word 16) (l : Lines) {i j : Nat}

theorem linesAt_self (n : Nat) (hn : n ≤ 80) : linesAt x l n n hn hn = runLines x l n hn :=
  rfl

theorem linesAt_left_succ (hi : i < 80) (hj : j ≤ 80) :
    linesAt x l (i + 1) j hi hj =
      { linesAt x l i j hi.le hj with left := leftStep x ⟨i, hi⟩ (linesAt x l i j hi.le hj).left } :=
  rfl

theorem linesAt_right_succ (hi : i ≤ 80) (hj : j < 80) :
    linesAt x l i (j + 1) hi hj =
      { linesAt x l i j hi hj.le with right := rightStep x ⟨j, hj⟩ (linesAt x l i j hi hj.le).right } :=
  rfl

/-- The idea of R157: a line depends on how many steps it has taken itself, not on how the other line's steps lie
between them. -/
theorem runOrder_linesAt {m n : Nat} (hm : m ≤ 80) (hn : n ≤ 80) (order : List Bool)
    (him : i + order.count true = m) (hjn : j + order.count false = n) :
    runOrder x order i j (linesAt x l i j (by omega) (by omega)) = linesAt x l m n hm hn := by
  induction order generalizing i j with
  | nil =>
    subst him hjn
    rfl
  | cons b order ih =>
    cases b with
    | true =>
      rw [List.count_cons_self] at him
      rw [List.count_cons_of_ne (by decide)] at hjn
      rw [runOrder, dif_pos (by omega), ← linesAt_left_succ]
      exact ih (by omega) hjn
    | false =>
      rw [List.count_cons_of_ne (by decide)] at him
      rw [List.count_cons_self] at hjn
      rw [runOrder, dif_pos (by omega), ← linesAt_right_succ]
      exact ih him (by omega)

end Order

/-! ### BLOCK_LENGTH (R141) -/

theorem compress_eq_none_iff {h : Chain} {blk : Bytes} : compress h blk = none ↔ blk.length ≠ 64 :=
  ⟨fun hnone hl => Option.some_ne_none _ ((compress_eq_some hl).symm.trans hnone), compress_eq_none⟩

@[simp] theorem initialised_cause (s : State) : (initialised s).cause = s.cause := rfl
@[simp] theorem updated_cause (p : Bytes) (s : State) : (updated p s).cause = s.cause := rfl
@[simp] theorem finalized_cause (s : State) : (finalized s).cause = s.cause := rfl

/-- A command keeps CAUSE or writes one of the four causes of R201 to R204. -/
theorem exec_cause {i : Instr} {s t : State} (h : exec i s = .next t) :
    t.cause = s.cause ∨ t.cause ∈ [.illegalCommand, .notInitialised, .spentContext, .countOverflow] := by
  cases i with
  | init p =>
    obtain ⟨-, rfl⟩ | ⟨-, -, rfl⟩ | ⟨-, -, rfl⟩ := execInit_cases h <;> simp
  | update p =>
    obtain ⟨-, rfl⟩ | ⟨-, rfl⟩ | ⟨-, rfl⟩ | ⟨-, -, rfl⟩ | ⟨-, -, rfl⟩ := execUpdate_cases h <;> simp
  | finalize p =>
    obtain ⟨-, rfl⟩ | ⟨-, -, rfl⟩ | ⟨-, -, rfl⟩ | ⟨-, -, rfl⟩ | ⟨-, -, -, rfl⟩ | ⟨-, -, -, rfl⟩ :=
      execFinalize_cases h <;> simp

theorem exec_cause_ne_blockLength {i : Instr} {s t : State} (h : exec i s = .next t) (hs : s.cause ≠ .blockLength) :
    t.cause ≠ .blockLength := by
  obtain hkept | hraised := exec_cause h
  · rwa [hkept]
  · intro ht
    rw [ht] at hraised
    exact absurd hraised (by decide)

/-! ### The statements -/

/-- Settles O3, round by round: the range of each clause is the round's steps. -/
theorem roundFunctionsAreMirrored : Obligations.RoundFunctionsAreMirrored :=
  fun x w j => ⟨fun h => steps_of_round x w 0 (Nat.zero_le _) h, fun ⟨hlow, hhigh⟩ => steps_of_round x w 1 hlow hhigh,
    fun ⟨hlow, hhigh⟩ => steps_of_round x w 2 hlow hhigh, fun ⟨hlow, hhigh⟩ => steps_of_round x w 3 hlow hhigh,
    fun hlow => steps_of_round x w 4 hlow j.isLt⟩

/-- Settles O6, by induction over the order, from lines that have taken no step to lines that have taken all 80. -/
theorem linesInterleaveFreely : Obligations.LinesInterleaveFreely := by
  intro x l order hleft hright
  rw [← linesAt_self]
  exact runOrder_linesAt x l (Nat.le_refl 80) (Nat.le_refl 80) order (i := 0) (j := 0) (by omega) (by omega)

/-- Settles O7: the length check of COMPRESS, and the causes a command can write. -/
theorem blockLengthIsNeverRaised : Obligations.BlockLengthIsNeverRaised :=
  ⟨fun _ _ => compress_eq_none_iff, fun _ _ _ => exec_cause_ne_blockLength⟩

/-- Settles O4, row by row. -/
theorem tableRowsArePermutations : Obligations.TableRowsArePermutations :=
  ⟨nodup_rlRows_rrRows, fun j =>
    ⟨slRows_mem_amounts (roundOf j) (placeOf j), srRows_mem_amounts (roundOf j) (placeOf j)⟩⟩

/-- Settles O5: the step form as R154 gives it. -/
theorem stepRotatesRegisters : Obligations.StepRotatesRegisters :=
  fun _ _ _ _ _ _ _ _ _ => rfl

/-- Settles O8: COMPRESS of a 64-byte block is the combination of the lines it runs. -/
theorem combinationUsesOldState : Obligations.CombinationUsesOldState := by
  rintro h blk hl _ rfl
  exact compress_eq_some hl

end Sys2Proof.Machine

/-!
PROOFS. The bitwise primitives (42_bitwise_primitives.md): the left rotate (R180) and the Boolean functions
bit by bit (R181 to R185).
-/

namespace Sys2Proof.Machine

/-! ### The left rotate (R180) -/

/-- The model's rotate is the library's, so the library's bit law applies to it. -/
theorem rol_eq_rotateLeft (x : Word) (n : Nat) : rol x n = x.rotateLeft n := rfl

/-- R180's formula: an amount below 32 needs no reduction. -/
theorem rol_of_lt {n : Nat} (x : Word) (hn : n < 32) : rol x n = ((x <<< n) ||| (x >>> (32 - n))) := by
  rw [rol, Nat.mod_eq_of_lt hn]

/-- The bit law of R180: the bits below `n` wrap round from the top of `x`, the others move up by `n`. -/
theorem getLsbD_rol {n i : Nat} (x : Word) (hn : n < 32) (hi : i < 32) :
    (rol x n).getLsbD i = x.getLsbD ((i + 32 - n) % 32) := by
  rw [rol_eq_rotateLeft, BitVec.getLsbD_rotateLeft, Nat.mod_eq_of_lt hn, Bool.cond_decide]
  split
  next hwrap =>
    have hsource : (i + 32 - n) % 32 = 32 - n + i := by omega
    rw [hsource]
  next hmove =>
    have hsource : (i + 32 - n) % 32 = i - n := by omega
    rw [hsource, decide_eq_true hi, Bool.true_and]

/-! ### The Boolean functions (R181 to R185) -/

section BitByBit

variable (x y z : Word) (i : Nat)

theorem getLsbD_f0 : (f0 x y z).getLsbD i = (x.getLsbD i ^^ y.getLsbD i ^^ z.getLsbD i) := by
  rw [f0, BitVec.getLsbD_xor, BitVec.getLsbD_xor]

variable {i} (hi : i < 32)
include hi

/-- R187: inside the word the complement flips every bit. -/
theorem getLsbD_not_word : (~~~x).getLsbD i = !x.getLsbD i := by
  rw [BitVec.getLsbD_not, decide_eq_true hi, Bool.true_and]

/-- R182: `x` selects. -/
theorem getLsbD_f1 : (f1 x y z).getLsbD i = if x.getLsbD i then y.getLsbD i else z.getLsbD i := by
  rw [f1, BitVec.getLsbD_or, BitVec.getLsbD_and, BitVec.getLsbD_and, getLsbD_not_word x hi]
  cases x.getLsbD i <;> simp

theorem getLsbD_f2 : (f2 x y z).getLsbD i = ((x.getLsbD i || !y.getLsbD i) ^^ z.getLsbD i) := by
  rw [f2, BitVec.getLsbD_xor, BitVec.getLsbD_or, getLsbD_not_word y hi]

/-- R184: `z` selects. -/
theorem getLsbD_f3 : (f3 x y z).getLsbD i = if z.getLsbD i then x.getLsbD i else y.getLsbD i := by
  rw [f3, BitVec.getLsbD_or, BitVec.getLsbD_and, BitVec.getLsbD_and, getLsbD_not_word z hi]
  cases z.getLsbD i <;> simp

theorem getLsbD_f4 : (f4 x y z).getLsbD i = (x.getLsbD i ^^ (y.getLsbD i || !z.getLsbD i)) := by
  rw [f4, BitVec.getLsbD_xor, BitVec.getLsbD_or, getLsbD_not_word z hi]

end BitByBit

/-! ### The statements -/

/-- Settles O1: the formula and the bit law for every word and amount; the two examples are evaluated. -/
theorem rotateMovesEachBit : Obligations.RotateMovesEachBit :=
  ⟨fun x _ _ hn => ⟨rol_of_lt x hn, fun _ hi => getLsbD_rol x hn hi⟩, by decide, by decide⟩

/-- Settles O2, function by function. -/
theorem booleanFunctionsBitByBit : Obligations.BooleanFunctionsBitByBit :=
  fun x y z i hi =>
    ⟨getLsbD_f0 x y z i, getLsbD_f1 x y z hi, getLsbD_f2 x y z hi, getLsbD_f3 x y z hi, getLsbD_f4 x y z hi⟩

end Sys2Proof.Machine

/-!
PROOFS. Exceptions (60_exceptions.md): the one fault a command takes (R201 to R204, R206), what fault entry keeps
(R205, R207), that FAULT and CAUSE stay until hardware reset (R208, R209), and the invariant of every step.
-/

namespace Sys2Proof.Machine

open Sys2Proof.Safety

/-! ### The first fault in the order of R206, command by command -/

/-- The model's fault entry is R207's. -/
theorem faultEntry_eq_raise (c : Cause) (s : State) : faultEntry c s = raise c s := rfl

section FirstFault

variable {op : Byte} {p : Bytes} {s : State} {c : Cause}

theorem firstFault_reserved (hop : op ≠ 0x01 ∧ op ≠ 0x02 ∧ op ≠ 0x03) :
    firstFault op p s = some .illegalCommand :=
  if_pos hop

theorem firstFault_init : firstFault 0x01 p s = if p ≠ [] then some .illegalCommand else none := by
  simp [firstFault]

theorem firstFault_update :
    firstFault 0x02 p s =
      if s.phase = .idle then some .notInitialised
      else if s.phase = .spent then some .spentContext
      else if overflows s p.length then some .countOverflow
      else none := by
  simp [firstFault, overflows_iff]

theorem firstFault_finalize :
    firstFault 0x03 p s =
      if p ≠ [] then some .illegalCommand
      else if s.phase = .idle then some .notInitialised
      else if s.phase = .spent then some .spentContext
      else if overflows s (padLen (haveOf s.count)) then some .countOverflow
      else none := by
  simp [firstFault, overflows_iff]

/-- A use before INIT (R202). -/
theorem firstFault_of_idle (hi : s.phase = .idle) :
    firstFault 0x02 p s = some .notInitialised ∧ firstFault 0x03 [] s = some .notInitialised := by
  refine ⟨?_, ?_⟩
  · rw [firstFault_update, if_pos hi]
  · rw [firstFault_finalize, if_neg (not_not.2 rfl), if_pos hi]

/-- A use after FINALIZE (R203). -/
theorem firstFault_of_spent (hs : s.phase = .spent) :
    firstFault 0x02 p s = some .spentContext ∧ firstFault 0x03 [] s = some .spentContext := by
  have hi : s.phase ≠ .idle := by simp [hs]
  refine ⟨?_, ?_⟩
  · rw [firstFault_update, if_neg hi, if_pos hs]
  · rw [firstFault_finalize, if_neg (not_not.2 rfl), if_neg hi, if_pos hs]

/-- In ABSORB the only fault left to UPDATE is COUNT_OVERFLOW (R204). -/
theorem firstFault_update_of_overflow (ha : s.phase = .absorb) (hm : s.countOverflow = .fault)
    (hle : 2 ^ 64 ≤ s.count.toNat + 8 * p.length) : firstFault 0x02 p s = some .countOverflow := by
  rw [firstFault_update, if_neg (by simp [ha]), if_neg (by simp [ha]), if_pos ((overflows_iff s _).2 ⟨hm, hle⟩)]

theorem firstFault_finalize_of_overflow (ha : s.phase = .absorb) (hm : s.countOverflow = .fault)
    (hle : 2 ^ 64 ≤ s.count.toNat + 8 * padLen (haveOf s.count)) :
    firstFault 0x03 [] s = some .countOverflow := by
  rw [firstFault_finalize, if_neg (not_not.2 rfl), if_neg (by simp [ha]), if_neg (by simp [ha]),
    if_pos ((overflows_iff s _).2 ⟨hm, hle⟩)]

/-- The faults of the list are those of R201 to R204; BLOCK_LENGTH is none of them (R205). -/
theorem firstFault_cause (h : firstFault op p s = some c) : c ≠ .none ∧ c ≠ .blockLength := by
  unfold firstFault at h
  split_ifs at h <;> cases h <;> decide

/-- COUNT_OVERFLOW is met under the parameter Fault only (R204). -/
theorem mode_of_firstFault_countOverflow (h : firstFault op p s = some .countOverflow) :
    s.countOverflow = .fault := by
  unfold firstFault at h
  split_ifs at h with _ _ _ _ ho
  · cases h
  · cases h
  · cases h
  · cases h
  · exact ho.1

end FirstFault

/-! ### A command takes its first fault, and without one completes (R206) -/

/-- The state a command leaves that meets no fault, its response given. -/
def completed : Instr → State → State
  | .init _, s => respond .ok (initialised s)
  | .update p, s => respond .ok (updated p s)
  | .finalize _, s => respond (.digest (digestBytes (finalized s).h)) (finalized s)

section Outcome

variable {i : Instr} {op : Byte} {p : Bytes} {s t : State} {c : Cause} {rest : List HostAction}

@[simp] theorem completed_cause (i : Instr) (s : State) : (completed i s).cause = s.cause := by
  cases i <;> rfl

theorem completed_phase_ne_fault (i : Instr) (hf : s.phase ≠ .fault) : (completed i s).phase ≠ .fault := by
  cases i with
  | init p => exact Phase.noConfusion
  | update p => exact hf
  | finalize p => exact Phase.noConfusion

/-- Outside FAULT the checks of the dispatch are the list of R206. -/
theorem exec_eq_firstFault (i : Instr) (hf : s.phase ≠ .fault) :
    exec i s = .next ((firstFault (opcodeByte i) i.payload s).elim (completed i s) fun c => raise c s) := by
  cases i with
  | init p =>
    rw [exec, execInit, if_neg hf, opcodeByte, Instr.payload, firstFault_init]
    split_ifs <;> rfl
  | update p =>
    rw [exec, execUpdate_eq, if_neg hf, opcodeByte, Instr.payload, firstFault_update]
    split_ifs <;> rfl
  | finalize p =>
    rw [exec, execFinalize_eq, if_neg hf, opcodeByte, Instr.payload, firstFault_finalize]
    split_ifs <;> rfl

theorem exec_of_firstFault (hf : s.phase ≠ .fault) (hc : firstFault (opcodeByte i) i.payload s = some c) :
    exec i s = .next (raise c s) := by
  rw [exec_eq_firstFault i hf, hc, Option.elim_some]

theorem exec_of_no_fault (hf : s.phase ≠ .fault) (hc : firstFault (opcodeByte i) i.payload s = none) :
    exec i s = .next (completed i s) := by
  rw [exec_eq_firstFault i hf, hc, Option.elim_none]

/-- Everything a command can do: be refused in FAULT, take its first fault, or complete. -/
theorem exec_cases (h : exec i s = .next t) :
    (s.phase = .fault ∧ t = respondFault s) ∨
    (s.phase ≠ .fault ∧ ∃ c, firstFault (opcodeByte i) i.payload s = some c ∧ t = raise c s) ∨
    (s.phase ≠ .fault ∧ firstFault (opcodeByte i) i.payload s = none ∧ t = completed i s) := by
  by_cases hf : s.phase = .fault
  · exact .inl ⟨hf, Host.Outcome.next.inj (h.symm.trans (exec_of_fault i hf))⟩
  · cases hc : firstFault (opcodeByte i) i.payload s with
    | some c => exact .inr (.inl ⟨hf, c, rfl, Host.Outcome.next.inj (h.symm.trans (exec_of_firstFault hf hc))⟩)
    | none => exact .inr (.inr ⟨hf, rfl, Host.Outcome.next.inj (h.symm.trans (exec_of_no_fault hf hc))⟩)

/-- A step on a command runs the command its opcode selects, or refuses a reserved opcode. -/
theorem step_command_exec (hp : s.pending = .command op p :: rest) :
    (∃ i, op = opcodeByte i ∧ p = i.payload ∧ step s = exec i (s.afterAction rest)) ∨
    ((op ≠ 0x01 ∧ op ≠ 0x02 ∧ op ≠ 0x03) ∧ step s = .next (reservedCommand (s.afterAction rest))) := by
  obtain ⟨hop, h⟩ | ⟨hop, h⟩ | ⟨hop, h⟩ | h := step_command hp
  · exact .inl ⟨.init p, hop, rfl, h⟩
  · exact .inl ⟨.update p, hop, rfl, h⟩
  · exact .inl ⟨.finalize p, hop, rfl, h⟩
  · exact .inr h

theorem reservedCommand_of_fault (hf : s.phase = .fault) : reservedCommand s = respondFault s :=
  if_pos hf

theorem reservedCommand_of_phase_ne (hf : s.phase ≠ .fault) : reservedCommand s = raise .illegalCommand s :=
  if_neg hf

/-- In FAULT every command is refused, whatever its opcode and payload (R208). -/
theorem step_command_of_fault (hp : s.pending = .command op p :: rest) (hf : s.phase = .fault) :
    step s = .next (respondFault (s.afterAction rest)) := by
  obtain ⟨i, -, -, h⟩ | ⟨-, h⟩ := step_command_exec hp
  · exact h.trans (exec_of_fault i hf)
  · exact h.trans (congrArg Host.Outcome.next (reservedCommand_of_fault hf))

theorem step_command_of_firstFault (hp : s.pending = .command op p :: rest) (hf : s.phase ≠ .fault)
    (hc : firstFault op p s = some c) : step s = .next (raise c (s.afterAction rest)) := by
  obtain ⟨i, rfl, rfl, h⟩ | ⟨hop, h⟩ := step_command_exec hp
  · exact h.trans (exec_of_firstFault hf hc)
  · obtain rfl : .illegalCommand = c := Option.some.inj ((firstFault_reserved hop).symm.trans hc)
    exact h.trans (congrArg Host.Outcome.next (reservedCommand_of_phase_ne hf))

/-- A command that meets no fault has an assigned opcode, and completes. -/
theorem step_command_of_no_fault (hp : s.pending = .command op p :: rest) (hf : s.phase ≠ .fault)
    (hc : firstFault op p s = none) : ∃ i, step s = .next (completed i (s.afterAction rest)) := by
  obtain ⟨i, rfl, rfl, h⟩ | ⟨hop, -⟩ := step_command_exec hp
  · exact ⟨i, h.trans (exec_of_no_fault hf hc)⟩
  · exact absurd (hc.symm.trans (firstFault_reserved hop)) (Option.some_ne_none _).symm

end Outcome

/-! ### CAUSE and FAULT until hardware reset (R208, R209) -/

/-- CAUSE as R209 keeps it from `s` to `t`: only entering FAULT changes it, and in FAULT nothing does. -/
structure KeepsCause (s t : State) : Prop where
  outside : t.phase ≠ .fault → t.cause = s.cause
  inside : s.phase = .fault → t.cause = s.cause ∧ t.phase = .fault

section Causes

variable {s t : State}

theorem keepsCause_of_eq (hp : t.phase = s.phase) (hc : t.cause = s.cause) : KeepsCause s t :=
  ⟨fun _ => hc, fun hf => ⟨hc, hp.trans hf⟩⟩

theorem keepsCause_raise (c : Cause) (hf : s.phase ≠ .fault) : KeepsCause s (raise c s) :=
  ⟨fun hne => absurd rfl hne, fun h => absurd h hf⟩

theorem exec_keepsCause {i : Instr} (h : exec i s = .next t) : KeepsCause s t := by
  obtain ⟨-, rfl⟩ | ⟨hf, c, -, rfl⟩ | ⟨hf, -, rfl⟩ := exec_cases h
  · exact keepsCause_of_eq rfl rfl
  · exact keepsCause_raise c hf
  · exact ⟨fun _ => completed_cause i s, fun h => absurd h hf⟩

theorem reservedCommand_keepsCause (s : State) : KeepsCause s (reservedCommand s) := by
  by_cases hf : s.phase = .fault
  · rw [reservedCommand_of_fault hf]
    exact keepsCause_of_eq rfl rfl
  · rw [reservedCommand_of_phase_ne hf]
    exact keepsCause_raise .illegalCommand hf

/-- A step is a hardware reset or keeps CAUSE. -/
theorem step_keepsCause (h : step s = .next t) :
    (∃ rest, s.pending = .hardwareReset :: rest ∨ ∃ op p, s.pending = .commandCutByReset op p :: rest) ∨
    KeepsCause s t := by
  obtain ⟨-, rfl⟩ | ⟨op, p, rest, i, -, -, he⟩ | ⟨op, p, rest, -, -, rfl⟩ | ⟨rest, -, rfl⟩ | ⟨rest, hr, -⟩ :=
    step_cases h
  · exact .inr (keepsCause_of_eq rfl rfl)
  · obtain ⟨hout, hin⟩ := exec_keepsCause he
    exact .inr ⟨hout, hin⟩
  · obtain ⟨hout, hin⟩ := reservedCommand_keepsCause (s.afterAction rest)
    exact .inr ⟨hout, hin⟩
  · exact .inr (keepsCause_of_eq rfl rfl)
  · exact .inl ⟨rest, hr⟩

/-- Under Wrap no command newly ends with COUNT_OVERFLOW (R204). -/
theorem exec_cause_of_wrap {i : Instr} (hw : s.countOverflow = .wrap) (h : exec i s = .next t)
    (ht : t.cause = .countOverflow) : s.cause = .countOverflow := by
  obtain ⟨-, rfl⟩ | ⟨-, c, hc, rfl⟩ | ⟨-, -, rfl⟩ := exec_cases h
  · exact ht
  · obtain rfl : c = .countOverflow := ht
    cases hw.symm.trans (mode_of_firstFault_countOverflow hc)
  · rwa [completed_cause] at ht

end Causes

/-! ### The invariant (R23, R77, R115, R205, R209) -/

section Invariant

variable {s t : State}

/-- The invariant reads no field of the host but the responses. -/
theorem inv_respond {r : Response} (h : Inv s) (hr : ∀ d, r = .digest d → d.length = 20) : Inv (respond r s) :=
  { h with
    digest_length := fun d hd => by
      rw [respond_responses, List.mem_append, List.mem_singleton] at hd
      exact hd.elim (h.digest_length d) fun he => hr d he.symm }

theorem inv_afterAction (rest : List HostAction) (h : Inv s) : Inv (s.afterAction rest) :=
  { h with }

theorem inv_readStatus (h : Inv s) : Inv (readStatus s) :=
  { h with }

/-- Hardware reset gives the registers of `State.reset` (log entries 1 and 2), and COUNT is zero there. -/
theorem inv_hardReset (h : Inv s) : Inv (hardReset s) where
  cause_none_iff := by simp
  no_block_length := by simp
  whole_bytes := rfl
  spent_on_boundary hs := nomatch hs
  digest_length := h.digest_length

theorem inv_respondFault (h : Inv s) : Inv (respondFault s) :=
  inv_respond h fun _ he => nomatch he

/-- Fault entry with one of the causes R201 to R204. -/
theorem inv_raise {c : Cause} (hc : c ≠ .none ∧ c ≠ .blockLength) (h : Inv s) : Inv (raise c s) where
  cause_none_iff := by simp [hc.1]
  no_block_length := hc.2
  whole_bytes := h.whole_bytes
  spent_on_boundary hs := nomatch hs
  digest_length := (inv_respond (r := .fault c) h fun _ he => nomatch he).digest_length

theorem inv_reservedCommand (h : Inv s) : Inv (reservedCommand s) := by
  by_cases hf : s.phase = .fault
  · rw [reservedCommand_of_fault hf]
    exact inv_respondFault h
  · rw [reservedCommand_of_phase_ne hf]
    exact inv_raise (by decide) h

theorem inv_initialised (hf : s.phase ≠ .fault) (h : Inv s) : Inv (initialised s) where
  cause_none_iff := iff_of_true (h.cause_none_iff.2 hf) Phase.noConfusion
  no_block_length := h.no_block_length
  whole_bytes := rfl
  spent_on_boundary hs := nomatch hs
  digest_length := h.digest_length

theorem inv_updated (p : Bytes) (hs : s.phase ≠ .spent) (h : Inv s) : Inv (updated p s) where
  cause_none_iff := h.cause_none_iff
  no_block_length := h.no_block_length
  whole_bytes := advance_whole_bytes _ h.whole_bytes
  spent_on_boundary he := absurd he hs
  digest_length := h.digest_length

theorem inv_finalized (hf : s.phase ≠ .fault) (h : Inv s) : Inv (finalized s) where
  cause_none_iff := iff_of_true (h.cause_none_iff.2 hf) Phase.noConfusion
  no_block_length := h.no_block_length
  whole_bytes := advance_whole_bytes _ h.whole_bytes
  spent_on_boundary _ := haveOf_finalized s
  digest_length := h.digest_length

theorem inv_completed {i : Instr} (hf : s.phase ≠ .fault) (hc : firstFault (opcodeByte i) i.payload s = none)
    (h : Inv s) : Inv (completed i s) := by
  cases i with
  | init p => exact inv_respond (inv_initialised hf h) fun _ he => nomatch he
  | update p =>
    have hs : s.phase ≠ .spent := fun hs => nomatch hc.symm.trans (firstFault_of_spent hs).1
    exact inv_respond (inv_updated p hs h) fun _ he => nomatch he
  | finalize p =>
    refine inv_respond (inv_finalized hf h) fun d he => ?_
    rw [← Response.digest.inj he, length_digestBytes]

theorem inv_exec {i : Instr} (hi : Inv s) (h : exec i s = .next t) : Inv t := by
  obtain ⟨-, rfl⟩ | ⟨-, c, hc, rfl⟩ | ⟨hf, hc, rfl⟩ := exec_cases h
  · exact inv_respondFault hi
  · exact inv_raise (firstFault_cause hc) hi
  · exact inv_completed hf hc hi

theorem inv_step (hi : Inv s) (h : step s = .next t) : Inv t := by
  obtain ⟨-, rfl⟩ | ⟨op, p, rest, i, -, -, he⟩ | ⟨op, p, rest, -, -, rfl⟩ | ⟨rest, -, rfl⟩ | ⟨rest, -, rfl⟩ :=
    step_cases h
  · exact hi
  · exact inv_exec (inv_afterAction rest hi) he
  · exact inv_reservedCommand (inv_afterAction rest hi)
  · exact inv_readStatus (inv_afterAction rest hi)
  · exact inv_hardReset (inv_afterAction rest hi)

end Invariant

/-! ### The statements -/

/-- Settles O49, by the cases of a step; each operation on the state keeps the invariant. -/
theorem everyStepKeepsTheInvariant : Obligations.EveryStepKeepsTheInvariant :=
  fun _ _ => inv_step

/-- Settles O40: the overflow is the first fault of UPDATE and FINALIZE in ABSORB, and its guard excludes Wrap. -/
theorem countOverflowFaults : Obligations.CountOverflowFaults := by
  refine ⟨fun s p ha hm hle => ?_, fun s ha hm hle => ?_, fun i s t => exec_cause_of_wrap⟩
  · exact exec_of_firstFault (i := .update p) (by simp [ha]) (firstFault_update_of_overflow ha hm hle)
  · exact exec_of_firstFault (i := .finalize []) (by simp [ha]) (firstFault_finalize_of_overflow ha hm hle)

/-- Settles O41: the three ways a command can go. -/
theorem firstFaultInOrderIsTaken : Obligations.FirstFaultInOrderIsTaken := by
  intro s op p rest hp
  refine ⟨step_command_of_fault hp, fun c => step_command_of_firstFault hp, fun hf hc => ?_⟩
  obtain ⟨i, h⟩ := step_command_of_no_fault hp hf hc
  exact ⟨_, h, completed_phase_ne_fault i hf, completed_cause i _⟩

/-- Settles O42: of the three ways a command can go, only its first fault enters FAULT. -/
theorem faultEntryIsPrecise : Obligations.FaultEntryIsPrecise := by
  intro i s t h hs ht
  obtain ⟨hf, -⟩ | ⟨-, c, hc, rfl⟩ | ⟨-, -, rfl⟩ := exec_cases h
  · exact absurd hf hs
  · exact ⟨rfl, rfl, rfl, (firstFault_cause hc).1, rfl⟩
  · exact absurd ht (completed_phase_ne_fault i hs)

/-- Settles O43: every command is refused, and of the host's actions only a hardware reset leaves FAULT. -/
theorem faultIsTerminalUntilReset : Obligations.FaultIsTerminalUntilReset := by
  refine ⟨fun s op p rest hf hp => step_command_of_fault hp hf, fun s t hf h ht => ?_⟩
  obtain hreset | hkeep := step_keepsCause h
  · exact hreset
  · exact absurd (hkeep.inside hf).2 ht

/-- Settles O44, by the cases of a step that is no hardware reset. -/
theorem causeStaysUntilReset : Obligations.CauseStaysUntilReset := by
  refine ⟨rfl, hardReset_cause, fun s t h hreset hcut => ?_⟩
  obtain ⟨rest, hr | ⟨op, p, hr⟩⟩ | ⟨hout, hin⟩ := step_keepsCause h
  · exact absurd hr (hreset rest)
  · exact absurd hr (hcut op p rest)
  · exact ⟨hout, hin⟩

/-- Settles O20, by the first branch of the step. -/
theorem engineHoldsBetweenCommands : Obligations.EngineHoldsBetweenCommands := by
  intro s hp
  rw [step, hp]

/-- Settles O37: ILLEGAL_COMMAND heads the list of R206. -/
theorem illegalCommandsFault : Obligations.IllegalCommandsFault := by
  refine ⟨fun s op p rest hf hp hop => ?_, fun s p hf hne => ⟨?_, ?_⟩⟩
  · have hreserved : op ≠ 0x01 ∧ op ≠ 0x02 ∧ op ≠ 0x03 := by
      refine ⟨?_, ?_, ?_⟩ <;> (rintro rfl; exact absurd hop (by decide))
    exact step_command_of_firstFault hp hf (firstFault_reserved hreserved)
  · exact execInit_of_payload hf hne
  · exact exec_of_firstFault (i := .finalize p) hf (firstFault_finalize.trans (if_pos hne))

/-- Settles O38: in IDLE the first fault of a use is NOT_INITIALISED. -/
theorem useBeforeInitFaults : Obligations.UseBeforeInitFaults := by
  intro s hi
  have hf : s.phase ≠ .fault := by simp [hi]
  exact ⟨fun p => exec_of_firstFault (i := .update p) hf (firstFault_of_idle hi).1,
    exec_of_firstFault (i := .finalize []) hf (firstFault_of_idle (p := []) hi).2⟩

/-- Settles O39: in SPENT the first fault of a use is SPENT_CONTEXT. -/
theorem reuseAfterFinalizeFaults : Obligations.ReuseAfterFinalizeFaults := by
  intro s hs
  have hf : s.phase ≠ .fault := by simp [hs]
  exact ⟨fun p => exec_of_firstFault (i := .update p) hf (firstFault_of_spent hs).1,
    exec_of_firstFault (i := .finalize []) hf (firstFault_of_spent (p := []) hs).2⟩

/-- Settles O45, field by field. -/
theorem blockLengthFaultEntry : Obligations.BlockLengthFaultEntry :=
  fun s => ⟨raiseBlockLength_phase s, raiseBlockLength_cause s, raiseBlockLength_responses s,
    raiseBlockLength_countOverflow s, raiseBlockLength_pending s, raiseBlockLength_statusReads s⟩

end Sys2Proof.Machine

/-!
PROOFS. Hardware reset and the host's script of a message (70_reset_and_hazards.md): reset between commands and inside
one (R230, R231), and that INIT, one UPDATE per piece and FINALIZE give the message's digest (R234, R239, R241).
-/

namespace Sys2Proof.Machine

open Sys2Proof.Safety

/-! ### Hardware reset (R230, R231) -/

/-- Both forms of hardware reset are the one operation, on the rest of the host's script. -/
theorem step_reset {s : State} {rest : List HostAction}
    (hp : s.pending = .hardwareReset :: rest ∨ ∃ op p, s.pending = .commandCutByReset op p :: rest) :
    step s = .next (hardReset (s.afterAction rest)) := by
  obtain hp | ⟨op, p, hp⟩ := hp
  · rw [step, hp]
  · rw [step, hp]

@[simp] theorem status_hardReset (s : State) : status (hardReset s) = 0x00 :=
  (status_congr (t := State.reset) rfl rfl).trans (by decide)

/-! ### What a command keeps of the script and of CAUSE (R209, R239) -/

section Script

variable {m p : Bytes} {pieces : List Bytes} {s t : State} {op : Byte} {rest : List HostAction}
  {answers : List Response} {c : Cause}

@[simp] theorem reservedCommand_pending (s : State) : (reservedCommand s).pending = s.pending := by
  unfold reservedCommand
  split
  · exact respondFault_pending s
  · exact raise_pending .illegalCommand s

/-- A command takes itself off the host's script, and nothing else. -/
theorem step_command_pending (hp : s.pending = .command op p :: rest) (h : step s = .next t) : t.pending = rest := by
  obtain ⟨i, -, -, he⟩ | ⟨-, he⟩ := step_command_exec hp <;> rw [he] at h
  · exact (exec_keepsHostFields h).pending
  · obtain rfl := Host.Outcome.next.inj h
    exact reservedCommand_pending _

/-- A command that does not end in FAULT keeps CAUSE (R209). -/
theorem step_command_cause (hp : s.pending = .command op p :: rest) (h : step s = .next t) (ht : t.phase ≠ .fault) :
    t.cause = s.cause := by
  obtain ⟨_, hr | ⟨_, _, hr⟩⟩ | hkeep := step_keepsCause h
  · cases hp.symm.trans hr
  · cases hp.symm.trans hr
  · exact hkeep.outside ht

/-! ### The script of a message (R234, R239, R241) -/

/-- A run's end after the FINALIZE of a context of `m`: the digest as last response, SPENT, CAUSE and the rest of the
host's script as given. -/
structure Digested (m : Bytes) (rest : List HostAction) (answers : List Response) (c : Cause) (t : State) : Prop where
  responses : t.responses = answers ++ [.digest (ripemd160 m)]
  phase : t.phase = .spent
  cause : t.cause = c
  pending : t.pending = rest

/-- A run that ends with a digest has succeeded (R239). -/
theorem succeeded_of_digested (h : Digested m rest answers c t) : Succeeded t := by
  refine ⟨fun c hc => ?_, fun hf => nomatch h.phase.symm.trans hf⟩
  rw [h.responses, List.getLast?_concat] at hc
  cases hc

/-- FINALIZE ends the run of a live context (R113, R114). -/
theorem step_finalize_digested (h : Absorbing m (.command 0x03 [] :: rest) answers s) :
    ∃ t, step s = .next t ∧ Digested m rest answers s.cause t := by
  obtain ⟨t, ht, hr, hphase⟩ := step_finalize_absorbing h
  have hcause : t.cause = s.cause := step_command_cause h.pending ht (by simp [hphase])
  exact ⟨t, ht, hr, hphase, hcause, step_command_pending h.pending ht⟩

/-- From a live context of `m`, an UPDATE for each piece and FINALIZE give the digest of `m` with the pieces behind
it, by induction on the pieces. -/
theorem run_updates_digested (h : Absorbing m (pieces.map (.command 0x02) ++ .command 0x03 [] :: rest) answers s) :
    ∃ t : State, Host.Core.run Sys2Proof.core (pieces.length + 1) s = .next t ∧
      Digested (m ++ pieces.flatten) rest (answers ++ List.replicate pieces.length .ok) s.cause t := by
  induction pieces generalizing m answers s with
  | nil =>
    obtain ⟨t, ht, hd⟩ := step_finalize_digested h
    refine ⟨t, run_succ ht, ?_⟩
    rwa [List.flatten_nil, List.length_nil, List.replicate_zero, List.append_nil, List.append_nil]
  | cons p pieces ih =>
    obtain ⟨s1, hs1, h1⟩ := step_update_absorbing h
    have hcause : s1.cause = s.cause := step_command_cause h.pending hs1 (by simp [h1.phase])
    obtain ⟨t, ht, hd⟩ := ih h1
    refine ⟨t, (run_succ hs1).trans ht, ?_⟩
    rwa [hcause, List.append_assoc, List.append_assoc] at hd

/-- From a clean entry under Wrap, INIT opens the empty context, and the pieces make the message (R101, R109). -/
theorem run_messageScript_digested (hf : CleanEntry s) (hw : s.countOverflow = .wrap)
    (hp : s.pending = messageScript pieces ++ rest) :
    ∃ t : State, Host.Core.run Sys2Proof.core (pieces.length + 2) s = .next t ∧
      Digested pieces.flatten rest (s.responses ++ List.replicate (pieces.length + 1) .ok) s.cause t := by
  have hscript : messageScript pieces ++ rest =
      .command 0x01 [] :: (pieces.map (.command 0x02) ++ .command 0x03 [] :: rest) := by
    simp [messageScript]
  have hinit := hp.trans hscript
  obtain ⟨s1, hs1, h1⟩ := step_init_absorbing hw hf hinit
  have hcause : s1.cause = s.cause := step_command_cause hinit hs1 (by simp [h1.phase])
  obtain ⟨t, ht, hd⟩ := run_updates_digested h1
  refine ⟨t, (run_succ hs1).trans ht, ?_⟩
  rwa [hcause, List.append_assoc] at hd

end Script

/-! ### The statements -/

/-- Settles O52: the context follows the message through the script, however it is split, up to its digest. -/
theorem messageScriptGivesTheDigest : Obligations.MessageScriptGivesTheDigest := by
  intro s pieces rest hf hw hp
  obtain ⟨t, ht, hd⟩ := run_messageScript_digested hf hw hp
  refine ⟨t, ht, ?_, hd.phase, hd.cause, hd.pending, succeeded_of_digested hd⟩
  rw [hd.responses, List.append_assoc]

/-- Settles O19: reset writes PHASE and CAUSE, which make STATUS, and none of the host's fields. -/
theorem hardwareResetReturnsToIdle : Obligations.HardwareResetReturnsToIdle :=
  fun s rest hp => ⟨hardReset (s.afterAction rest), step_reset hp, rfl, rfl, status_hardReset _, rfl, rfl, rfl, rfl⟩

end Sys2Proof.Machine
